-- ==== Sys2Proof/Word.lean ====
section
/-! DEFINITION. The widths of the engine: words, command words, response words, indexes (00_scope R4, R6; 30_encoding R50, R55). -/

namespace Sys2Proof

/-- A 32-bit word: a key word, a block half, a round key, a status word (R4 `HALF_BITS`). -/
abbrev Word := BitVec 32

/-- A 4-bit group of a word, and an S-box entry (R4, R6). -/
abbrev Nibble := BitVec 4

/-- The 40-bit command word `CW` (R50). -/
abbrev CommandWord := BitVec 40

/-- The 34-bit response word `RSP` (R55). -/
abbrev ResponseWord := BitVec 34

/-- A key word index `0..7` (R11, R30, R54). -/
abbrev KeyIndex := BitVec 3

/-- A round index `0..31` (R30, R70). -/
abbrev RoundIndex := BitVec 5

/-- The eight key words `K0..K7` (R11). -/
abbrev KeyWords := Vector Word 8

/-- A byte of a message in the host's external form (R142, R143). -/
abbrev Byte := BitVec 8

end Sys2Proof
end

