-- ==== Sys2Proof/Config.lean ====
section
/-! DEFINITION. What an implementation fixes and the spec leaves open (00_scope R5): the substitution tables, the cycle counts,
and the host's own parameters. The constants have no body, so no proof can use a value of them. -/

namespace Sys2Proof

/-- A Substitution Table Bank `SBOX[t][v]`: eight tables, each a permutation of `0..15` (R5, R18, R82). -/
abbrev SBoxBank := Fin 8 → Equiv.Perm Nibble

/-- The engine's constant table bank. The spec gives no entry of it (N1, D17), so it stands for every bank of permutations. -/
opaque Config.sbox : SBoxBank

/-- `STEP_CYCLES >= 1` (R5, D18): clock cycles per engine step. No rule reads it. -/
opaque Config.stepCycles : PNat

/-- `RSP_CYCLES >= 1` (R5, R32, D18): clock cycles from a command to its response. No rule reads it. -/
opaque Config.rspCycles : PNat

/-- The case of the hexadecimal digits the host writes (`HOST_HEX_CASE`, R145, D20). -/
inductive HexCase where
  | lower
  | upper
  deriving DecidableEq, Repr

/-- The host's open parameters (R5; D20, D21, D26). They are no part of the engine: only the functions of
`Machine/MessageProcessor.lean` take them. A message text is a list of characters. -/
structure HostParams where
  /-- `HOST_TRUNCATE` (R149): drop a trailing partial chunk instead of refusing. -/
  truncate : Bool := false
  /-- `HOST_HEX_CASE` (R145). -/
  hexCase : HexCase := .lower
  /-- `HOST_TEXT_ENCODING` (R143), from text to bytes. -/
  encodeText : List Char → List Byte
  /-- `HOST_TEXT_ENCODING` (R143, R148), from bytes to text: `none` where the bytes are not valid text. -/
  decodeText : List Byte → Option (List Char)
  /-- `HOST_STRIP_RULE` (R147): removing the filler after decryption. -/
  stripFiller : List Byte → List Byte

end Sys2Proof
end

