-- ==== Sys2Proof/Syntax.lean ====
section
/-! DEFINITION. The commands of the engine, one constructor per row of spec/opcode_table.json (30_encoding R52). -/

namespace Sys2Proof

/-- The direction of an operation, the value of the register `DIR` (R9, R13): 0 is Encrypt, 1 is Decrypt. -/
inductive Direction where
  | encrypt
  | decrypt
  deriving DecidableEq, Repr

/-- The half of the block that `LDBLK` and `RDBLK` name (R30, R54): 0 is `L`, 1 is `R`. -/
inductive Half where
  | left
  | right
  deriving DecidableEq, Repr

/-- The seven host commands. Their operands have no ill-formed value: an `IDX` out of its range is no command but an illegal
word (R53, R58), which `decode` refuses by name. -/
inductive Instr where
  /-- `NOP` (R121). -/
  | nop
  /-- `LDKEY i, w` (R122). -/
  | ldkey (i : KeyIndex) (w : Word)
  /-- `SETDIR d` (R123). -/
  | setdir (d : Direction)
  /-- `LDBLK h, w` (R124). -/
  | ldblk (h : Half) (w : Word)
  /-- `START` (R101). -/
  | start
  /-- `RDBLK h` (R125). -/
  | rdblk (h : Half)
  /-- `RDST` (R126). -/
  | rdst
  deriving DecidableEq, Repr

end Sys2Proof
end

