-- ==== Sys2Proof/WellFormed.lean ====
section
/-! DEFINITION. Which command words are well formed: the match and mask pairs of 30_encoding R52, kept as the spec's table.
Every term of `Instr` is a legal command, so the check is on the word. -/

namespace Sys2Proof

/-- One row of the opcode map (R52): `cw` is the row's command exactly when `cw &&& mask = pattern`. -/
structure OpcodeRow where
  mnemonic : String
  pattern : CommandWord
  mask : CommandWord
  deriving DecidableEq, Repr

/-- The opcode map (R52; spec/opcode_table.json). -/
def opcodeRows : List OpcodeRow :=
  [ ⟨"NOP",    0x0000000000#40, 0xFFFFFFFFFF#40⟩,
    ⟨"LDKEY",  0x1000000000#40, 0xF800000000#40⟩,
    ⟨"SETDIR", 0x2000000000#40, 0xFEFFFFFFFF#40⟩,
    ⟨"LDBLK",  0x3000000000#40, 0xFE00000000#40⟩,
    ⟨"START",  0x4000000000#40, 0xFFFFFFFFFF#40⟩,
    ⟨"RDBLK",  0x5000000000#40, 0xFEFFFFFFFF#40⟩,
    ⟨"RDST",   0x6000000000#40, 0xFFFFFFFFFF#40⟩ ]

/-- `cw` is a word of the row. -/
def OpcodeRow.admits (row : OpcodeRow) (cw : CommandWord) : Bool :=
  cw &&& row.mask == row.pattern

/-- A command word is well formed when it matches a row (R52: "Every word that matches no row is illegal"). -/
def wellFormedWord (cw : CommandWord) : Bool :=
  opcodeRows.any fun row => row.admits cw

end Sys2Proof
end

