-- ==== Sys2Proof/Decode.lean ====
section
/-! DEFINITION. The fields of a command word, `decode` (30_encoding R53), `encode` (R62), and the opcode table's numbering. -/

namespace Sys2Proof

/-- `OPC = CW[39:36]` (R51). -/
def opcField (cw : CommandWord) : BitVec 4 := cw.extractLsb' 36 4

/-- `Z = CW[35]`, reserved, must be 0 (R51). -/
def zField (cw : CommandWord) : BitVec 1 := cw.extractLsb' 35 1

/-- `IDX = CW[34:32]` (R51). -/
def idxField (cw : CommandWord) : BitVec 3 := cw.extractLsb' 32 3

/-- `DATA = CW[31:0]` (R51). -/
def dataField (cw : CommandWord) : Word := cw.extractLsb' 0 32

/-- Why a word is illegal (R58). The response does not tell the reasons apart: each is answered `ERR_ILLEGAL` (R161). -/
inductive Illegal where
  /-- `CW[35] = 1`. -/
  | reservedBitSet
  /-- `OPC` is `0x7` to `0xF`. -/
  | reservedOpcode
  /-- `IDX != 0` in a command with no index. -/
  | indexNotZero
  /-- `IDX >= 2` where only 0 and 1 are legal. -/
  | indexOutOfRange
  /-- `DATA != 0` in a command with no data. -/
  | dataNotZero
  deriving DecidableEq, Repr

/-- The value of `DIR` and of `SETDIR`'s operand: 0 Encrypt, 1 Decrypt (R13, R54). -/
def Direction.bit : Direction → BitVec 1
  | .encrypt => 0#1
  | .decrypt => 1#1

/-- The value of `LDBLK`'s and `RDBLK`'s operand: 0 is `L`, 1 is `R` (R54). -/
def Half.bit : Half → BitVec 1
  | .left => 0#1
  | .right => 1#1

/-- The direction that an `IDX` field names; only 0 and 1 name one (R54). -/
def directionOfIdx (idx : BitVec 3) : Option Direction :=
  if idx = 0#3 then some .encrypt else if idx = 1#3 then some .decrypt else none

/-- The half that an `IDX` field names; only 0 and 1 name one (R54). -/
def halfOfIdx (idx : BitVec 3) : Option Half :=
  if idx = 0#3 then some .left else if idx = 1#3 then some .right else none

/-- The form of `NOP`, `START`, `RDST`: `IDX` and `DATA` must be 0 (R53). -/
def decodeBare (i : Instr) (cw : CommandWord) : Except Illegal Instr :=
  if idxField cw ≠ 0#3 then .error .indexNotZero
  else if dataField cw ≠ 0#32 then .error .dataNotZero
  else .ok i

/-- `SETDIR`: `IDX <= 1`, `DATA` must be 0 (R53). -/
def decodeSetdir (cw : CommandWord) : Except Illegal Instr :=
  match directionOfIdx (idxField cw) with
  | none => .error .indexOutOfRange
  | some d => if dataField cw ≠ 0#32 then .error .dataNotZero else .ok (.setdir d)

/-- `LDBLK`: `IDX <= 1`, any `DATA` (R53). -/
def decodeLdblk (cw : CommandWord) : Except Illegal Instr :=
  match halfOfIdx (idxField cw) with
  | none => .error .indexOutOfRange
  | some h => .ok (.ldblk h (dataField cw))

/-- `RDBLK`: `IDX <= 1`, `DATA` must be 0 (R53). -/
def decodeRdblk (cw : CommandWord) : Except Illegal Instr :=
  match halfOfIdx (idxField cw) with
  | none => .error .indexOutOfRange
  | some h => if dataField cw ≠ 0#32 then .error .dataNotZero else .ok (.rdblk h)

/-- `decode(CW)` (R53): total on all `2^40` words, a function of the word only (R42). -/
def decode (cw : CommandWord) : Except Illegal Instr :=
  if zField cw ≠ 0#1 then .error .reservedBitSet
  else if opcField cw = 0x0#4 then decodeBare .nop cw
  else if opcField cw = 0x1#4 then .ok (.ldkey (idxField cw) (dataField cw))
  else if opcField cw = 0x2#4 then decodeSetdir cw
  else if opcField cw = 0x3#4 then decodeLdblk cw
  else if opcField cw = 0x4#4 then decodeBare .start cw
  else if opcField cw = 0x5#4 then decodeRdblk cw
  else if opcField cw = 0x6#4 then decodeBare .rdst cw
  else .error .reservedOpcode

/-- `encode` (R62), the inverse of `decode` on legal words. -/
def encode : Instr → CommandWord
  | .nop => 0x0000000000#40
  | .ldkey i w => (0x1#40 <<< 36) ||| (i.setWidth 40 <<< 32) ||| w.setWidth 40
  | .setdir d => (0x2#40 <<< 36) ||| (d.bit.setWidth 40 <<< 32)
  | .ldblk h w => (0x3#40 <<< 36) ||| (h.bit.setWidth 40 <<< 32) ||| w.setWidth 40
  | .start => 0x4000000000#40
  | .rdblk h => (0x5#40 <<< 36) ||| (h.bit.setWidth 40 <<< 32)
  | .rdst => 0x6000000000#40

/-- The low `nbits` bits of `w`, as a number; the bits above are 0. -/
def tableBits (nbits w : Nat) : Nat := w % 2 ^ nbits

/-- The instruction that the decoder reads from a word numbered as spec/opcode_table.json numbers it. A command is one 40-bit
word (R50), bit 0 its least significant bit, so the number is the word itself; a number of more than 40 bits is no word. -/
def decodeTableWord (nbits w : Nat) : Option Instr :=
  if tableBits nbits w < 2 ^ 40 then (decode (BitVec.ofNat 40 (tableBits nbits w))).toOption else none

end Sys2Proof
end

