-- ==== Sys2Proof/Machine/State.lean ====
section
/-! DEFINITION. The engine's state as plain data (10_state R10), the moves and responses that stand in it, its reset value (R22). -/

namespace Sys2Proof.Machine

/-- The four response codes (30_encoding R56). -/
inductive ResponseCode where
  /-- 0: the command was accepted and executed. -/
  | ok
  /-- 1: the word is illegal. -/
  | errIllegal
  /-- 2: a legal command other than `NOP`, `RDST` arrived while `BUSY = 1`. -/
  | errBusy
  /-- 3: `START` arrived while idle with `KV != 0xFF`. -/
  | errNoKey
  deriving DecidableEq, Repr

/-- A response `(CODE, RDATA)` (R55). -/
structure Response where
  code : ResponseCode
  data : Word
  deriving DecidableEq, Repr

/-- One step of one agent (20_memory R44). -/
inductive Move where
  /-- The host presents a command word (R32). -/
  | command (cw : CommandWord)
  /-- The engine takes a step if one is enabled (R44). -/
  | engine
  /-- `rst_i = 1` for one clock (R180); `presented` is a command word on the port in that clock, if any, and is ignored. -/
  | reset (presented : Option CommandWord)
  deriving DecidableEq, Repr

/-- The state of one engine (R10), and two fields of the model's own: the moves still to be made and the responses given so
far, which R21 calls parameters and outputs of the step relation. -/
structure State where
  /-- `KEY[0..7]` (R11). -/
  key : KeyWords
  /-- `KV`: bit `i` says that `KEY[i]` was written since reset (R12). -/
  kv : BitVec 8
  /-- `DIR` (R13). -/
  dir : Direction
  /-- `L` (R14). -/
  l : Word
  /-- `R` (R14). -/
  r : Word
  /-- `RND`, `0..32` (R15). -/
  rnd : BitVec 6
  /-- `BUSY` (R16). -/
  busy : Bool
  /-- `DONE` (R17). -/
  done : Bool
  /-- The model's own: the moves to come, the next one first (R21, R44). DESIGN CHOICE, log entry 1. -/
  schedule : List Move
  /-- The model's own: the responses given, oldest first (R21, R32, R191). DESIGN CHOICE, log entry 2. -/
  responses : List Response
  deriving DecidableEq, Repr

/-- The reset state (R22): every register at the value the spec gives, nothing scheduled, nothing answered. -/
def State.reset : State where
  key := Vector.replicate 8 0#32
  kv := 0x00#8
  dir := .encrypt
  l := 0#32
  r := 0#32
  rnd := 0#6
  busy := false
  done := false
  schedule := []
  responses := []

/-- Reasons to stop with a fault: there is none. "No engine step and no datapath function can fail" (60_exceptions R166), a
rejected command goes on with the next one (R163), and there is no memory to miss (20_memory R30). -/
inductive Fault where
  deriving DecidableEq, Repr

/-- Reasons to refuse an instruction. -/
inductive Refusal where
  /-- Raised by an arm of `exec` whose instruction has no meaning yet; safe, since the model then stops. No arm raises it. -/
  | notModelled (mnemonic : String)
  deriving DecidableEq, Repr

/-- The outcomes of a step of the engine. -/
abbrev Result := Host.Outcome State Fault Refusal

end Sys2Proof.Machine
end

