-- ==== Sys2Proof/Machine/Flags.lean ====
section
/-! DEFINITION. The flags and the views of them: `KV`, `KEYOK`, `STATUS`, the output lines (10_state R12, R16, R17, R19, R25). -/

namespace Sys2Proof.Machine

/-- `KV[i] <- 1` (R12, R122). -/
def State.markKeyLoaded (s : State) (i : KeyIndex) : State :=
  { s with kv := s.kv ||| (1#8 <<< i.toNat) }

/-- `KV = 0xFF`: the whole key has been loaded (R12), `STATUS.KEYOK` (R19). -/
def State.keyOk (s : State) : Bool := s.kv == 0xFF#8

/-- The status word `STATUS`, a view of the state (R19). -/
def State.status (s : State) : Word :=
  (BitVec.ofBool s.busy).setWidth 32
    ||| ((BitVec.ofBool s.done).setWidth 32 <<< 1)
    ||| (s.dir.bit.setWidth 32 <<< 2)
    ||| ((BitVec.ofBool s.keyOk).setWidth 32 <<< 3)
    ||| (s.kv.setWidth 32 <<< 8)
    ||| (s.rnd.setWidth 32 <<< 16)

/-- The output line `busy_o` (R25). -/
def State.busyLine (s : State) : Bool := s.busy

/-- The output line `done_o` (R25, R165). -/
def State.doneLine (s : State) : Bool := s.done

end Sys2Proof.Machine
end

