-- ==== Sys2Proof/Machine/Operands.lean ====
section
/-! DEFINITION. The operands of the commands: a key word by its index, a block half by its name (20_memory R30, R33, R37). -/

namespace Sys2Proof.Machine

/-- `KEY[i]` of a key register file (R11). -/
def keyAt (key : KeyWords) (i : KeyIndex) : Word := key[i.toNat]'i.isLt

/-- `KEY[i]`. No command reads it (R11, R33). -/
def State.keyWord (s : State) (i : KeyIndex) : Word := keyAt s.key i

/-- `KEY[i] <- w` (R11). -/
def State.setKeyWord (s : State) (i : KeyIndex) (w : Word) : State :=
  { s with key := s.key.set i.toNat w i.isLt }

/-- The block register that `h` names: `L` or `R` (R30, R54). -/
def State.half (s : State) : Half → Word
  | .left => s.l
  | .right => s.r

/-- Write the block register that `h` names; the other keeps its value (R124). -/
def State.setHalf (s : State) (h : Half) (w : Word) : State :=
  match h with
  | .left => { s with l := w }
  | .right => { s with r := w }

end Sys2Proof.Machine
end

