-- ==== Sys2Proof/Machine/Ops.lean ====
section
/-! DEFINITION. The operations every command shares: answering, rejecting, the busy check, reset, and taking the next move.
A rejection is the engine's only exception (60_exceptions R160, R161); nothing is saved, so there is no return from one (R163). -/

namespace Sys2Proof.Machine

/-- The code's value in `RSP[33:32]` (30_encoding R56). -/
def ResponseCode.bits : ResponseCode → BitVec 2
  | .ok => 0#2
  | .errIllegal => 1#2
  | .errBusy => 2#2
  | .errNoKey => 3#2

/-- The response word `{CODE, RDATA}` (R55). -/
def Response.word (x : Response) : ResponseWord := x.code.bits ++ x.data

/-- `respond (CODE, data)` (00_scope R7): the response of the command in hand. -/
def State.respond (s : State) (code : ResponseCode) (data : Word) : State :=
  { s with responses := s.responses ++ [⟨code, data⟩] }

/-- An accepted command ends in `s` and answers `(OK, data)` (R55). -/
def accept (data : Word) (s : State) : Result := .next (s.respond .ok data)

/-- `reject CODE` (R160): no state changes, the response is `(CODE, 0)`. -/
def reject (code : ResponseCode) (s : State) : Result := .next (s.respond code 0#32)

/-- The busy check of the common dispatch (44_host_commands R120): while `BUSY = 1` the command is rejected with `ERR_BUSY`.
The five commands other than `NOP` and `RDST` pass through it. -/
def whenIdle (s : State) (body : Result) : Result :=
  if s.busy then reject .errBusy s else body

/-- Reset (70_reset_and_hazards R180): every piece of writable state takes its reset value, and no response is produced. The
moves to come and the responses already delivered are no state of the engine (R21) and stay. -/
def State.applyReset (s : State) : State :=
  { State.reset with schedule := s.schedule, responses := s.responses }

/-- The move that comes next, and the state that has it taken off the schedule. With nothing scheduled the next move is the
engine's: "an engine step that stays enabled is eventually taken" (R193). DESIGN CHOICE, log entry 1. -/
def State.nextMove (s : State) : Move × State :=
  match s.schedule with
  | [] => (.engine, s)
  | m :: rest => (m, { s with schedule := rest })

/-- Put a command word in front of the schedule: the host presents it next (R32). -/
def State.presentCommand (s : State) (cw : CommandWord) : State :=
  { s with schedule := .command cw :: s.schedule }

end Sys2Proof.Machine
end

