-- ==== Sys2Proof/Machine/HostCommands.lean ====
section
/-! DEFINITION. The host commands for data movement and status (44_host_commands R121 to R126). -/

namespace Sys2Proof.Machine

/-- `NOP` (R121): answers `(OK, 0)` in every state. -/
def execNop (s : State) : Result := accept 0#32 s

/-- `LDKEY i, w` (R122): `KEY[i] <- w`, `KV[i] <- 1`; `DONE` stays. -/
def execLdkey (i : KeyIndex) (w : Word) (s : State) : Result :=
  whenIdle s (accept 0#32 ((s.setKeyWord i w).markKeyLoaded i))

/-- `SETDIR d` (R123): `DIR <- d`; `DONE` stays. -/
def execSetdir (d : Direction) (s : State) : Result :=
  whenIdle s (accept 0#32 { s with dir := d })

/-- `LDBLK h, w` (R124): `L <- w` or `R <- w`, and `DONE <- 0`. -/
def execLdblk (h : Half) (w : Word) (s : State) : Result :=
  whenIdle s (accept 0#32 { s.setHalf h w with done := false })

/-- `RDBLK h` (R125): answers `L` or `R`, whatever `DONE` is; no state changes. -/
def execRdblk (h : Half) (s : State) : Result :=
  whenIdle s (accept (s.half h) s)

/-- `RDST` (R126): answers `STATUS` in every state; no state changes. -/
def execRdst (s : State) : Result := accept s.status s

end Sys2Proof.Machine
end

