-- ==== Sys2Proof/Machine/KeySchedule.lean ====
section
/-! DEFINITION. The key schedule generator (40_key_schedule R70, R71). It selects key words and computes nothing on them. -/

namespace Sys2Proof.Machine

/-- `KSEL(d, i)` (R70): the key word index of round `i`, with `lo = i[2:0]` and `hi = i[4:3]`. -/
def ksel (d : Direction) (i : RoundIndex) : KeyIndex :=
  let lo : BitVec 3 := i.extractLsb' 0 3
  let hi : BitVec 2 := i.extractLsb' 3 2
  match d with
  | .encrypt => if hi = 3#2 then 7#3 - lo else lo
  | .decrypt => if hi = 0#2 then lo else 7#3 - lo

/-- `RK(key, d, i) = key[KSEL(d, i)]` (R71): the round key, a view that is not stored (10_state R20). -/
def rk (key : KeyWords) (d : Direction) (i : RoundIndex) : Word := keyAt key (ksel d i)

end Sys2Proof.Machine
end

