-- ==== Sys2Proof/Machine/SBoxStage.lean ====
section
/-! DEFINITION. The S-box lookup stage (41_sbox_stage R80, R81). The table bank is an argument (00_scope R5). -/

namespace Sys2Proof.Machine

/-- `nib(s, j) = s[31-4j : 28-4j]`, the most significant nibble first (00_scope R6). -/
def nib (s : Word) (j : Fin 8) : Nibble := s.extractLsb' (28 - 4 * j.val) 4

/-- `SUBST(s)` (R80): nibble `j` goes through table `j`, table 0 on bits 31:28 and table 7 on bits 3:0 (R81). -/
def substWord (S : SBoxBank) (s : Word) : Word :=
  S 0 (nib s 0) ++ S 1 (nib s 1) ++ S 2 (nib s 2) ++ S 3 (nib s 3)
    ++ S 4 (nib s 4) ++ S 5 (nib s 5) ++ S 6 (nib s 6) ++ S 7 (nib s 7)

end Sys2Proof.Machine
end

