-- ==== Sys2Proof/Machine/RoundFunction.lean ====
section
/-! DEFINITION. The Feistel round function: adder, rotator, XOR, swap (42_round_function R90 to R94, R97). -/

namespace Sys2Proof.Machine

/-- `ADD32(l, k) = (l + k) mod 2^32` (R90): the round key is added to the Left subblock (90_conflicts C1). -/
def add32 (l k : Word) : Word := l + k

/-- The general circular left rotation `rol32(x, n)`, `0 <= n <= 31` (00_scope R6, R97). -/
def rol32 (x : Word) (n : Fin 32) : Word :=
  if n.val = 0 then x else (x <<< n.val) ||| (x >>> (32 - n.val))

/-- `ROL11(t) = rol32(t, 11)` (R91). -/
def rol11 (t : Word) : Word := rol32 t 11

/-- `XOR32(u, r)` (R92). -/
def xor32 (u r : Word) : Word := u ^^^ r

/-- The keyed function `G(l, k)` (R93): add, then substitute, then rotate. -/
def keyedG (S : SBoxBank) (l k : Word) : Word := rol11 (substWord S (add32 l k))

/-- One Feistel round `ROUND(l, r, k)` (R94): the new Left is `r ^ G(l, k)`, the new Right is the old Left. -/
def feistelRound (S : SBoxBank) (l r k : Word) : Word × Word := (xor32 (keyedG S l k) r, l)

end Sys2Proof.Machine
end

