-- ==== Sys2Proof/Machine/LoopController.lean ====
section
/-! DEFINITION. The 32-round loop controller (43_loop_controller): `START` (R101) and the engine's own steps `E-ROUND` (R102) and
`E-FINAL` (R103). The phases of R100 are read off `BUSY` and `RND`. -/

namespace Sys2Proof.Machine

/-- The controller when `START` is accepted: `BUSY <- 1`, `DONE <- 0`, `RND <- 0` (R101). -/
def State.beginOperation (s : State) : State :=
  { s with busy := true, done := false, rnd := 0#6 }

/-- `START` (R101): `ERR_BUSY` while busy, `ERR_NOKEY` while a key word is missing, else the operation begins. -/
def execStart (s : State) : Result :=
  whenIdle s (if s.keyOk then accept 0#32 s.beginOperation else reject .errNoKey s)

/-- `E-ROUND` is enabled: `BUSY = 1` and `RND < 32` (R102), the phase running (R100). -/
def State.roundEnabled (s : State) : Bool := s.busy && decide (s.rnd < 32#6)

/-- `E-FINAL` is enabled: `BUSY = 1` and `RND = 32` (R103), the phase finishing (R100). -/
def State.finalEnabled (s : State) : Bool := s.busy && decide (s.rnd = 32#6)

/-- `E-ROUND` (R102): round number `RND`, with the key word `KEY[KSEL(DIR, RND)]`. -/
def State.engineRound (S : SBoxBank) (s : State) : State :=
  { s with
    l := (feistelRound S s.l s.r (rk s.key s.dir (s.rnd.setWidth 5))).1
    r := (feistelRound S s.l s.r (rk s.key s.dir (s.rnd.setWidth 5))).2
    rnd := s.rnd + 1#6 }

/-- `E-FINAL` (R103): exchange the halves once (90_conflicts C4) and stop; `RND` stays. -/
def State.engineFinal (s : State) : State :=
  { s with l := s.r, r := s.l, busy := false, done := true }

/-- The engine's step (20_memory R44): `E-ROUND` or `E-FINAL` where one is enabled, and no step otherwise. -/
def State.engineStep (S : SBoxBank) (s : State) : State :=
  if s.roundEnabled then s.engineRound S
  else if s.finalEnabled then s.engineFinal
  else s

end Sys2Proof.Machine
end

