-- ==== Sys2Proof/Machine/Dispatch.lean ====
section
/-! DEFINITION. One arm per command (44_host_commands R120: `execute c`, with the busy check inside the five commands it applies to). -/

namespace Sys2Proof.Machine

def exec (i : Instr) (s : State) : Host.Outcome State Fault Refusal :=
  match i with
  | .nop => Sys2Proof.Machine.execNop s
  | .ldkey k w => Sys2Proof.Machine.execLdkey k w s
  | .setdir d => Sys2Proof.Machine.execSetdir d s
  | .ldblk h w => Sys2Proof.Machine.execLdblk h w s
  | .start => Sys2Proof.Machine.execStart s
  | .rdblk h => Sys2Proof.Machine.execRdblk h s
  | .rdst => Sys2Proof.Machine.execRdst s

end Sys2Proof.Machine
end

