-- ==== Sys2Proof/Machine/Moves.lean ====
section
/-! DEFINITION. What one move does: a command word, an engine step, a reset (20_memory R32, R44; 44_host_commands R120). -/

namespace Sys2Proof.Machine

/-- A command word in one atomic step (R32, R120): an illegal word is rejected with `ERR_ILLEGAL` in every state (30_encoding
R58), any other is executed. -/
def runWord (cw : CommandWord) (s : State) : Result :=
  match decode cw with
  | .ok i => exec i s
  | .error _ => reject .errIllegal s

/-- What one move does (R44), with the substitution tables as an argument (00_scope R5). A word presented together with a reset is
ignored and gets no response (R32, R162, R180). -/
def runMove (S : SBoxBank) (m : Move) (s : State) : Result :=
  match m with
  | .command cw => runWord cw s
  | .engine => .next (s.engineStep S)
  | .reset _ => .next s.applyReset

/-- Moves made one after the other (R40), stopping at the first that gives no next state. -/
def runMoves (S : SBoxBank) : List Move → State → Result
  | [], s => .next s
  | m :: ms, s =>
    match runMove S m s with
    | .next t => runMoves S ms t
    | .fault r => .fault r
    | .refused r => .refused r

end Sys2Proof.Machine
end

