-- ==== Sys2Proof/Machine/Step.lean ====
section
/-! DEFINITION. One step of the machine: the next move of the schedule, a command, an engine step or a reset (20_memory R40, R44). -/

namespace Sys2Proof.Machine

/-- One step: the next move is taken off the schedule and made, with the engine's own tables. -/
def step (s : State) : Host.Outcome State Fault Refusal :=
  runMove Config.sbox s.nextMove.1 s.nextMove.2

/-- `s` with the command word numbered `w` (as spec/opcode_table.json numbers it) presented next, so that the next step
runs it. The engine stores no commands and fetches none (20_memory R42): the front of the schedule is where the next command
stands. Log entry 1. -/
def State.withFetchWord (s : State) (nbits w : Nat) : State :=
  s.presentCommand (BitVec.ofNat 40 (tableBits nbits w))

end Sys2Proof.Machine
end

