-- ==== Sys2Proof/Machine/BlockFunction.lean ====
section
/-! DEFINITION. The block transformation in closed form, `CRYPT` (43_loop_controller R104). No step of the machine calls it: it
is what an operation of 33 engine steps computes (R105). -/

namespace Sys2Proof.Machine

/-- The pair `(l_n, r_n)` after rounds `0` to `n - 1`, from `(l_0, r_0) = b` (R104). -/
def cryptRounds (S : SBoxBank) (key : KeyWords) (d : Direction) (b : Word × Word) : Nat → Word × Word
  | 0 => b
  | n + 1 =>
    feistelRound S (cryptRounds S key d b n).1 (cryptRounds S key d b n).2 (rk key d (BitVec.ofNat 5 n))

/-- `CRYPT(key, d, l, r) = (r_32, l_32)` (R104). -/
def crypt (S : SBoxBank) (key : KeyWords) (d : Direction) (b : Word × Word) : Word × Word :=
  ((cryptRounds S key d b 32).2, (cryptRounds S key d b 32).1)

end Sys2Proof.Machine
end

