-- ==== Sys2Proof/Machine/MessageProcessor.lean ====
section
/-! DEFINITION. The host's contract, the source's Message Processor (45_host_message_processor; 20_memory R34 to R36; 30_encoding
R61). These functions bind the host and never change what the engine does (R140); no step of the machine calls them. -/

namespace Sys2Proof.Message

open Sys2Proof.Machine

/-- The host's errors at the boundary (R148). -/
inductive HostError where
  /-- KeyFormatError: the key string is not exactly 64 hexadecimal characters (R141). -/
  | keyFormat
  /-- BlockAlignmentError: the length of a decryption input is not a multiple of 16 digits (R149). -/
  | blockAlignment
  /-- DecodeError: the stripped plaintext is not valid text (R148). -/
  | decode
  deriving DecidableEq, Repr

/-- The value of a hexadecimal character; the host accepts both cases (R141). -/
def hexValue (c : Char) : Option Nibble :=
  if 48 ≤ c.toNat ∧ c.toNat ≤ 57 then some (BitVec.ofNat 4 (c.toNat - 48))
  else if 97 ≤ c.toNat ∧ c.toNat ≤ 102 then some (BitVec.ofNat 4 (c.toNat - 87))
  else if 65 ≤ c.toNat ∧ c.toNat ≤ 70 then some (BitVec.ofNat 4 (c.toNat - 55))
  else none

/-- The digits of a hexadecimal string, or nothing where a character is no digit. -/
def parseHex : List Char → Option (List Nibble)
  | [] => some []
  | c :: cs =>
    match hexValue c, parseHex cs with
    | some d, some ds => some (d :: ds)
    | _, _ => none

/-- The character of a digit, in the host's case (`HOST_HEX_CASE`, R145). -/
def hexChar (case : HexCase) (d : Nibble) : Char :=
  if d.toNat < 10 then Char.ofNat (48 + d.toNat)
  else
    match case with
    | .lower => Char.ofNat (87 + d.toNat)
    | .upper => Char.ofNat (55 + d.toNat)

/-- The text of a string of digits. -/
def hexText (case : HexCase) (ds : List Nibble) : List Char := ds.map (hexChar case)

/-- A word from its hexadecimal digits, most significant first (R34, R35). -/
def wordOfDigits (ds : List Nibble) : Word := ds.foldl (fun acc d => acc * 16#32 + d.setWidth 32) 0#32

/-- The eight digits of a word, most significant first (R35). -/
def digitsOfWord (w : Word) : List Nibble :=
  [nib w 0, nib w 1, nib w 2, nib w 3, nib w 4, nib w 5, nib w 6, nib w 7]

/-- `KEY[i]` from digits `8i` to `8i+7` of the external key (R34). -/
def keyOfDigits (ds : List Nibble) : KeyWords :=
  Vector.ofFn fun i : Fin 8 => wordOfDigits ((ds.drop (8 * i.val)).take 8)

/-- Key parsing (R141): exactly 64 hexadecimal characters, or KeyFormatError. -/
def parseKey (text : List Char) : Except HostError KeyWords :=
  if text.length = 64 then
    match parseHex text with
    | some ds => .ok (keyOfDigits ds)
    | none => .error .keyFormat
  else .error .keyFormat

/-- The filler byte, the character `a` (R142, G1). -/
def filler : Byte := 0x61#8

/-- The number of filler bytes for a message of `n` bytes (R142). -/
def padCount (n : Nat) : Nat := (8 - n % 8) % 8

/-- Padding before encryption (R142): none for a length that is already a multiple of 8. -/
def pad (msg : List Byte) : List Byte := msg ++ List.replicate (padCount msg.length) filler

/-- The hexadecimal form: each byte as its high nibble, then its low nibble (R143). -/
def toHex (bytes : List Byte) : List Nibble := bytes.flatMap fun b => [b.extractLsb' 4 4, b.extractLsb' 0 4]

/-- The bytes of a string of digits, two digits a byte; a last odd digit is no byte. -/
def ofHex : List Nibble → List Byte
  | hi :: lo :: ds => (hi ++ lo) :: ofHex ds
  | _ => []

/-- The chunks of 16 digits, chunk `j` being digits `16j` to `16j+15` (R144); a partial chunk is in none of them. -/
def splitChunks (ds : List Nibble) : List (List Nibble) :=
  (List.range (ds.length / 16)).map fun j => (ds.drop (16 * j)).take 16

/-- A chunk as `(L, R)`: `L` from its first eight digits, `R` from its last eight (R36). -/
def blockOfChunk (ds : List Nibble) : Word × Word :=
  (wordOfDigits (ds.take 8), wordOfDigits ((ds.drop 8).take 8))

/-- A block as 16 digits, those of `L` first (R36, R145 `hex16`). -/
def digitsOfBlock (b : Word × Word) : List Nibble := digitsOfWord b.1 ++ digitsOfWord b.2

/-- The blocks of a string of digits (R144, R36). -/
def blocksOfDigits (ds : List Nibble) : List (Word × Word) := (splitChunks ds).map blockOfChunk

/-- The blocks of a message to encrypt: encode, pad, write in hexadecimal, split (R142, R143, R144). -/
def encryptBlocks (p : HostParams) (text : List Char) : List (Word × Word) :=
  blocksOfDigits (toHex (pad (p.encodeText text)))

/-- The blocks of a decryption input (R147, R149): not padded, and refused with BlockAlignmentError when its length is not a
multiple of 16 digits, unless `HOST_TRUNCATE` drops the partial chunk. -/
def decryptBlocks (p : HostParams) (ds : List Nibble) : Except HostError (List (Word × Word)) :=
  if ds.length % 16 = 0 ∨ p.truncate = true then .ok (blocksOfDigits ds) else .error .blockAlignment

/-- `KEY256` (R61): `LDKEY 0` to `LDKEY 7`, in this order. -/
def key256 (key : KeyWords) : List Instr :=
  [ .ldkey 0#3 (keyAt key 0#3), .ldkey 1#3 (keyAt key 1#3), .ldkey 2#3 (keyAt key 2#3), .ldkey 3#3 (keyAt key 3#3),
    .ldkey 4#3 (keyAt key 4#3), .ldkey 5#3 (keyAt key 5#3), .ldkey 6#3 (keyAt key 6#3), .ldkey 7#3 (keyAt key 7#3) ]

/-- `BLK64` (R61): `LDBLK L`, then `LDBLK R`. -/
def blk64 (b : Word × Word) : List Instr := [.ldblk .left b.1, .ldblk .right b.2]

/-- `WAIT` (R61) as the engine has seen it when it is over: `n` times `RDST` answered `BUSY = 1`, and the one that ended it, answered
`BUSY = 0`. The spec does not fix `n`; the host that looks at the answers is `Session.waitIdle` of Machine/HostSession.lean. -/
def wait (n : Nat) : List Instr := List.replicate (n + 1) .rdst

/-- `RDBLK64` (R61): `RDBLK L`, then `RDBLK R`. -/
def rdblk64 : List Instr := [.rdblk .left, .rdblk .right]

/-- The commands of one block (R145, R61): load, start, wait, read. -/
def blockCommands (waits : Nat) (b : Word × Word) : List Instr := blk64 b ++ [.start] ++ wait waits ++ rdblk64

/-- `ENCRYPT64` (R61). -/
def encrypt64 (waits : Nat) (b : Word × Word) : List Instr := .setdir .encrypt :: blockCommands waits b

/-- `DECRYPT64` (R61). -/
def decrypt64 (waits : Nat) (b : Word × Word) : List Instr := .setdir .decrypt :: blockCommands waits b

/-- The command sequence of a message (R145): the key and the direction once, then block after block, each block with the number
of answers `BUSY = 1` that its own `WAIT` got. -/
def messageCommands (key : KeyWords) (d : Direction) (blocks : List (Nat × Word × Word)) : List Instr :=
  key256 key ++ [.setdir d] ++ blocks.flatMap fun b => blockCommands b.1 b.2

/-- Commands as the host presents them: one word each (R62, R32). These are the host's moves only: where the engine's moves stand
between them is the schedule's (20_memory R44). -/
def asMoves (is : List Instr) : List Move := is.map fun i => .command (encode i)

/-- The output block that the host takes from the two responses of `RDBLK64` (R61, R36). R61 sets no condition on `CODE`; that a
pair with a response other than `OK` yields no block is the model's choice, DESIGN CHOICE, log entry 13 (the data of a rejected
read is no result, R185). -/
def blockOfResponses (x y : Response) : Option (Word × Word) :=
  if x.code = .ok ∧ y.code = .ok then some (x.data, y.data) else none

/-- The output digits of a message in closed form: each block through the block function, the outputs concatenated in order
(R145, R105). What the host reads from the engine is `Session.message` of Machine/HostSession.lean. -/
def outputDigits (S : SBoxBank) (key : KeyWords) (d : Direction) (blocks : List (Word × Word)) : List Nibble :=
  blocks.flatMap fun b => digitsOfBlock (crypt S key d b)

/-- The text of a decrypted message (R147, R148): strip the filler by the host's rule, then decode or DecodeError. -/
def recoverText (p : HostParams) (ds : List Nibble) : Except HostError (List Char) :=
  match p.decodeText (p.stripFiller (ofHex ds)) with
  | some t => .ok t
  | none => .error .decode

end Sys2Proof.Message
end

