-- ==== Sys2Proof/Safety.lean ====
section
/-! DEFINITION. The invariants of every reachable state (10_state R23), when a run has ended (70_reset_and_hazards R191), and runs. -/

namespace Sys2Proof.Machine

/-- The invariants (a) to (d) of R23; (e) and (f) are about the view `STATUS` and hold in every state. -/
abbrev State.Inv (s : State) : Prop :=
  s.rnd ≤ 32#6
    ∧ (s.done = true → s.busy = false ∧ s.rnd = 32#6)
    ∧ (s.busy = true → s.kv = 0xFF#8 ∧ s.done = false)
    ∧ ∀ i : KeyIndex, s.kv.getLsbD i.toNat = false → s.keyWord i = 0#32

/-- The controller's phases (43_loop_controller R100). -/
inductive Phase where
  | idle
  | running
  | finishing
  deriving DecidableEq, Repr

/-- The phase, read off `BUSY` and `RND` (R100). Where `BUSY = 1` and `RND` is a value the spec calls unreachable (33 to 63, R15)
the name `finishing` says nothing. -/
def State.phase (s : State) : Phase :=
  if s.busy = false then .idle else if s.rnd < 32#6 then .running else .finishing

/-- The run has ended: every move of the schedule is made, so the last command has its response, and `BUSY = 0` (R191). R191's run
has command words and engine steps only: that a reset (or an engine move) still scheduled keeps the run from having ended is the
model's choice, DESIGN CHOICE, log entry 14. -/
abbrev State.runEnded (s : State) : Prop := s.schedule = [] ∧ s.busy = false

/-- The next step is the host's, which presents the word `cw` (20_memory R44). -/
abbrev State.commandNext (s : State) (cw : CommandWord) : Prop := s.schedule.head? = some (.command cw)

/-- The next step is the engine's: it is scheduled, or nothing is (R44, R193). -/
abbrev State.engineNext (s : State) : Prop := s.schedule = [] ∨ s.schedule.head? = some .engine

/-- The next step is a reset (R44, R180). -/
abbrev State.resetNext (s : State) : Prop := ∃ p, s.schedule.head? = some (.reset p)

/-- The result of `n` steps of the machine from `s`. -/
abbrev runSteps (n : Nat) (s : State) : Host.Outcome State Fault Refusal := Host.Core.run Sys2Proof.core n s

end Sys2Proof.Machine
end

