-- ==== Sys2Proof/Certificates/Slice0/Obligations.lean ====
section
/-! DEFINITION. The statements for the provers, by the spec's numbered rules. Where a statement speaks of `schedule` or `responses` it
speaks of the model's own two fields (log entries 1 and 2). -/

open Sys2Proof Sys2Proof.Machine Sys2Proof.Message

/-! ### Encoding (30_encoding) -/

/-- R53, R62: every command decodes back from its word, with every operand. -/
def Obligations.DecodeOfEncode : Prop := ∀ i : Instr, decode (encode i) = .ok i

/-- R53: every legal word is the word of the command it decodes to, so each command has exactly one word. -/
def Obligations.EncodeOfDecode : Prop := ∀ (cw : CommandWord) (i : Instr), decode cw = .ok i → encode i = cw

/-- R58: a word is illegal exactly under the listed conditions. -/
def Obligations.IllegalWordsExactly : Prop :=
  ∀ cw : CommandWord, (∃ e, decode cw = .error e) ↔
    (cw.getLsbD 35 = true
      ∨ 0x7#4 ≤ opcField cw
      ∨ ((opcField cw = 0x0#4 ∨ opcField cw = 0x4#4 ∨ opcField cw = 0x6#4) ∧ (idxField cw ≠ 0#3 ∨ dataField cw ≠ 0#32))
      ∨ ((opcField cw = 0x2#4 ∨ opcField cw = 0x5#4) ∧ (2#3 ≤ idxField cw ∨ dataField cw ≠ 0#32))
      ∨ (opcField cw = 0x3#4 ∧ 2#3 ≤ idxField cw))

/-- R52: the match and mask pairs are mutually exclusive, and a word decodes exactly when it matches one of them. -/
def Obligations.OpcodeMapAgreesWithDecode : Prop :=
  (∀ (cw : CommandWord) (x y : OpcodeRow), x ∈ opcodeRows → y ∈ opcodeRows → x.admits cw = true → y.admits cw = true → x = y)
    ∧ ∀ cw : CommandWord, (∃ i, decode cw = .ok i) ↔ wellFormedWord cw = true

/-- R52: the number of legal command words. -/
def Obligations.NumberOfLegalWords : Prop :=
  Nat.card (Subtype fun cw : CommandWord => wellFormedWord cw = true) = 10 * 2 ^ 32 + 7

/-- R51, R54, R62: where each command's word holds its opcode, its reserved bit, its index and its data. -/
def Obligations.EncodeFieldLayout : Prop :=
  ∀ i : Instr,
    (encode i).getLsbD 35 = false
      ∧ (encode i).extractLsb' 36 4 = (match i with
          | .nop => 0x0#4 | .ldkey _ _ => 0x1#4 | .setdir _ => 0x2#4 | .ldblk _ _ => 0x3#4
          | .start => 0x4#4 | .rdblk _ => 0x5#4 | .rdst => 0x6#4)
      ∧ (encode i).extractLsb' 32 3 = (match i with
          | .ldkey k _ => k
          | .setdir .decrypt => 1#3
          | .ldblk .right _ => 1#3
          | .rdblk .right => 1#3
          | _ => 0#3)
      ∧ (encode i).extractLsb' 0 32 = (match i with
          | .ldkey _ w => w
          | .ldblk _ w => w
          | _ => 0#32)

/-- 95_test_vectors 4.5: words of every command and illegal words, as the spec lists them. -/
def Obligations.DecodesTheListedWords : Prop :=
  decode 0x0000000000#40 = .ok .nop
    ∧ decode 0x13CCDDEEFF#40 = .ok (.ldkey 3#3 0xCCDDEEFF#32)
    ∧ decode 0x2100000000#40 = .ok (.setdir .decrypt)
    ∧ decode 0x3161616161#40 = .ok (.ldblk .right 0x61616161#32)
    ∧ decode 0x4000000000#40 = .ok .start
    ∧ decode 0x5000000000#40 = .ok (.rdblk .left)
    ∧ decode 0x6000000000#40 = .ok .rdst
    ∧ (decode 0x0000000001#40).toOption = none
    ∧ (decode 0x1800112233#40).toOption = none
    ∧ (decode 0x2200000000#40).toOption = none
    ∧ (decode 0x7000000000#40).toOption = none

/-- R55, R56: the response word holds the code in its top two bits and the data below. -/
def Obligations.ResponseWordLayout : Prop :=
  ∀ (c : ResponseCode) (x : Word),
    (Response.word ⟨c, x⟩).extractLsb' 0 32 = x
      ∧ (Response.word ⟨c, x⟩).extractLsb' 32 2 = (match c with
          | .ok => 0#2 | .errIllegal => 1#2 | .errBusy => 2#2 | .errNoKey => 3#2)

/-! ### Steps (20_memory R32, R40, R44; 44_host_commands R120) -/

/-- R32, R120: a step that takes a legal word off the schedule is `exec` of its command; the step adds nothing but taking the
word off the schedule. -/
def Obligations.StepRunsTheDecodedCommand : Prop :=
  ∀ (s : State) (cw : CommandWord) (i : Instr), s.commandNext cw → decode cw = .ok i →
    step s = exec i { s with schedule := s.schedule.tail }

/-- R58, R160, R162: an illegal word is answered `(ERR_ILLEGAL, 0)` in every state, busy or idle, and changes nothing. -/
def Obligations.StepRejectsAnIllegalWord : Prop :=
  ∀ (s : State) (cw : CommandWord) (e : Illegal), s.commandNext cw → decode cw = .error e →
    step s = .next { s with schedule := s.schedule.tail, responses := s.responses ++ [⟨.errIllegal, 0#32⟩] }

/-- R102, R103, R44: the engine's step is `E-ROUND` where it is enabled, and `E-FINAL` where it is enabled. That an empty schedule is
the engine's turn is the model's choice (log entry 1). The third clause is the model's deduction and no rule's words: that an engine
move with no engine step enabled changes nothing (log entry 1), and that with `RND` above 32 none is enabled (log entry 8). -/
def Obligations.EngineStepEffect : Prop :=
  ∀ s : State, s.engineNext →
    (s.busy = true → s.rnd < 32#6 →
      step s = .next { s with
        l := s.r ^^^ keyedG Config.sbox s.l (s.keyWord (ksel s.dir (s.rnd.setWidth 5)))
        r := s.l
        rnd := s.rnd + 1#6
        schedule := s.schedule.tail })
    ∧ (s.busy = true → s.rnd = 32#6 →
      step s = .next { s with l := s.r, r := s.l, busy := false, done := true, schedule := s.schedule.tail })
    ∧ (s.busy = false ∨ 32#6 < s.rnd → step s = .next { s with schedule := s.schedule.tail })

/-- R180, R181, R22: reset in any state, also in the middle of an operation and with a word presented in the same clock, gives
every register its reset value and no response. That the two fields of the model's own stay is the model's choice (log entries 1, 2). -/
def Obligations.ResetAtAnyTime : Prop :=
  ∀ s : State, s.resetNext →
    ∃ t, step s = .next t ∧ (∀ k, t.keyWord k = 0#32) ∧ t.kv = 0x00#8 ∧ t.dir = .encrypt ∧ t.l = 0#32 ∧ t.r = 0#32
      ∧ t.rnd = 0#6 ∧ t.busy = false ∧ t.done = false ∧ t.responses = s.responses ∧ t.schedule = s.schedule.tail

/-- R166, R163: no command, engine step or reset ever stops the machine. -/
def Obligations.EveryStepAnswersANextState : Prop := ∀ s : State, ∃ t, step s = .next t

/-- R32, R62, R120: the word of any command, placed by `withFetchWord` in any state, is run by the very next step. -/
def Obligations.PresentedCommandRunsNext : Prop :=
  ∀ (i : Instr) (s : State), step (s.withFetchWord 40 (encode i).toNat) = exec i s ∧ decodeTableWord 40 (encode i).toNat = some i

/-! ### The commands (43_loop_controller R101, 44_host_commands R121 to R126) -/

/-- R121: `NOP` answers `(OK, 0)` in every state and changes nothing. -/
def Obligations.NopAnswersOk : Prop :=
  ∀ s : State, exec .nop s = .next { s with responses := s.responses ++ [⟨.ok, 0#32⟩] }

/-- R122: `LDKEY` while idle writes one key word and its valid flag, and nothing else. -/
def Obligations.LdkeyLoadsOneKeyWord : Prop :=
  ∀ (s : State) (i : KeyIndex) (w : Word), s.busy = false →
    ∃ t, exec (.ldkey i w) s = .next t
      ∧ (∀ j, t.keyWord j = if j = i then w else s.keyWord j)
      ∧ (∀ j : KeyIndex, t.kv.getLsbD j.toNat = if j = i then true else s.kv.getLsbD j.toNat)
      ∧ t.dir = s.dir ∧ t.l = s.l ∧ t.r = s.r ∧ t.rnd = s.rnd ∧ t.busy = s.busy ∧ t.done = s.done
      ∧ t.schedule = s.schedule ∧ t.responses = s.responses ++ [⟨.ok, 0#32⟩]

/-- R123: `SETDIR` while idle writes the direction, and nothing else. -/
def Obligations.SetdirSetsTheDirection : Prop :=
  ∀ (s : State) (d : Direction), s.busy = false →
    exec (.setdir d) s = .next { s with dir := d, responses := s.responses ++ [⟨.ok, 0#32⟩] }

/-- R124: `LDBLK` while idle writes the half it names and clears `DONE`, and nothing else. -/
def Obligations.LdblkLoadsOneHalf : Prop :=
  ∀ (s : State) (h : Half) (w : Word), s.busy = false →
    exec (.ldblk h w) s = .next { s with
      l := if h = .left then w else s.l
      r := if h = .right then w else s.r
      done := false
      responses := s.responses ++ [⟨.ok, 0#32⟩] }

/-- R101: `START` while idle with a complete key begins an operation, and changes nothing else. -/
def Obligations.StartBeginsAnOperation : Prop :=
  ∀ s : State, s.busy = false → s.kv = 0xFF#8 →
    exec .start s = .next { s with busy := true, done := false, rnd := 0#6, responses := s.responses ++ [⟨.ok, 0#32⟩] }

/-- R101, R161: `START` while idle with a key word missing is answered `(ERR_NOKEY, 0)` and changes nothing. -/
def Obligations.StartWithoutKeyIsRejected : Prop :=
  ∀ s : State, s.busy = false → s.kv ≠ 0xFF#8 →
    exec .start s = .next { s with responses := s.responses ++ [⟨.errNoKey, 0#32⟩] }

/-- R125: `RDBLK` while idle answers the half it names, whatever `DONE` is, and changes nothing. -/
def Obligations.RdblkAnswersOneHalf : Prop :=
  ∀ (s : State) (h : Half), s.busy = false →
    exec (.rdblk h) s = .next { s with responses := s.responses ++ [⟨.ok, if h = .left then s.l else s.r⟩] }

/-- R19, R25: `RDST` answers, in every state, a word whose fields are those of the `STATUS` table, and changes nothing; and in every
state the two output lines mirror `BUSY` and `DONE`. -/
def Obligations.RdstAnswersTheStatusFields : Prop :=
  ∀ s : State, s.busyLine = s.busy ∧ s.doneLine = s.done ∧ ∃ x : Word,
    exec .rdst s = .next { s with responses := s.responses ++ [⟨.ok, x⟩] }
      ∧ x.getLsbD 0 = s.busy
      ∧ x.getLsbD 1 = s.done
      ∧ x.getLsbD 2 = decide (s.dir = .decrypt)
      ∧ x.getLsbD 3 = decide (s.kv = 0xFF#8)
      ∧ x.extractLsb' 4 4 = 0#4
      ∧ x.extractLsb' 8 8 = s.kv
      ∧ x.extractLsb' 16 6 = s.rnd
      ∧ x.extractLsb' 22 10 = 0#10

/-- R120, R161: while busy every command other than `NOP` and `RDST` is answered `(ERR_BUSY, 0)` and changes nothing. -/
def Obligations.BusyRejectsTheOtherFive : Prop :=
  ∀ (s : State) (i : Instr), s.busy = true → i ≠ .nop → i ≠ .rdst →
    exec i s = .next { s with responses := s.responses ++ [⟨.errBusy, 0#32⟩] }

/-- R24, R33: the frame of every command: each register is unchanged unless the command is one that the access table lets write
it, and each command adds one response and leaves the schedule alone. -/
def Obligations.CommandFrames : Prop :=
  ∀ (i : Instr) (s t : State), exec i s = .next t →
    (∀ k, (∀ w, i ≠ .ldkey k w) → t.keyWord k = s.keyWord k)
      ∧ (∀ k : KeyIndex, (∀ w, i ≠ .ldkey k w) → t.kv.getLsbD k.toNat = s.kv.getLsbD k.toNat)
      ∧ ((∀ d, i ≠ .setdir d) → t.dir = s.dir)
      ∧ ((∀ w, i ≠ .ldblk .left w) → t.l = s.l)
      ∧ ((∀ w, i ≠ .ldblk .right w) → t.r = s.r)
      ∧ (i ≠ .start → t.rnd = s.rnd ∧ t.busy = s.busy)
      ∧ (i ≠ .start → (∀ h w, i ≠ .ldblk h w) → t.done = s.done)
      ∧ t.schedule = s.schedule
      ∧ ∃ x, t.responses = s.responses ++ [x]

/-- R161: the three rejections of a command word, each with its exact cause (which fixes their priority), and no other; the data of a
rejection is 0. -/
def Obligations.RejectionsAndTheirPriority : Prop :=
  ∀ (s : State) (cw : CommandWord), s.commandNext cw →
    ∃ t x, step s = .next t ∧ t.responses = s.responses ++ [x]
      ∧ (x.code = .errIllegal ↔ ∃ e, decode cw = .error e)
      ∧ (x.code = .errBusy ↔ s.busy = true ∧ ∃ i, decode cw = .ok i ∧ i ≠ .nop ∧ i ≠ .rdst)
      ∧ (x.code = .errNoKey ↔ decode cw = .ok .start ∧ s.busy = false ∧ s.kv ≠ 0xFF#8)
      ∧ (x.code ≠ .ok → x.data = 0#32)

/-- R160: a rejected command changes no state. -/
def Obligations.RejectionHasNoEffect : Prop :=
  ∀ (s t : State) (cw : CommandWord) (x : Response), s.commandNext cw → step s = .next t → t.responses = s.responses ++ [x] →
    x.code ≠ .ok → t = { s with schedule := s.schedule.tail, responses := s.responses ++ [⟨x.code, 0#32⟩] }

/-- R32, R55: every word on the port gets exactly one response, after those of the words before it, whose data is 0 unless it
answers an accepted `RDBLK` or `RDST`; an engine step and a reset give none. -/
def Obligations.OneResponsePerCommand : Prop :=
  ∀ s t : State, step s = .next t →
    (∀ cw, s.commandNext cw →
      ∃ x, t.responses = s.responses ++ [x]
        ∧ ((∀ h, decode cw ≠ .ok (.rdblk h)) → decode cw ≠ .ok .rdst → x.data = 0#32))
      ∧ (s.engineNext ∨ s.resetNext → t.responses = s.responses)

/-- R120: while busy no command word, legal or not, changes any state. -/
def Obligations.CommandsChangeNothingWhileBusy : Prop :=
  ∀ (s t : State) (cw : CommandWord), s.busy = true → s.commandNext cw → step s = .next t →
    t = { s with schedule := s.schedule.tail, responses := t.responses }

/-- R11, R75: key, valid flags and direction are fixed for as long as `BUSY = 1` and no reset comes. -/
def Obligations.KeyAndDirectionFrozenWhileBusy : Prop :=
  ∀ s t : State, s.busy = true → ¬ s.resetNext → step s = .next t → t.key = s.key ∧ t.kv = s.kv ∧ t.dir = s.dir

/-- R11, R33: no command word shows anything of the key: with any other key in its place the same response comes and every
other register becomes the same. -/
def Obligations.NoCommandRevealsTheKey : Prop :=
  ∀ (s t u : State) (cw : CommandWord) (k : KeyWords), s.commandNext cw → step s = .next t → step { s with key := k } = .next u →
    u = { t with key := u.key }

/-- R125, R167: while busy no command word shows anything of the running subblocks. -/
def Obligations.RunningBlockIsHidden : Prop :=
  ∀ (s t u : State) (cw : CommandWord) (x y : Word), s.busy = true → s.commandNext cw → step s = .next t →
    step { s with l := x, r := y } = .next u → u.responses = t.responses

/-- R38: `RDBLK` and `RDST` change no register, and repeated at once they answer the same. -/
def Obligations.ReadsHaveNoSideEffect : Prop :=
  ∀ (i : Instr) (s t : State), (i = .rdst ∨ ∃ h, i = .rdblk h) → exec i s = .next t →
    ∃ x, t = { s with responses := s.responses ++ [x] } ∧ exec i t = .next { s with responses := s.responses ++ [x, x] }

/-- R38: repeating `LDKEY`, `SETDIR` or `LDBLK` with the same operands leaves the registers as after the first. -/
def Obligations.WritesAreIdempotent : Prop :=
  ∀ (i : Instr) (s t : State), ((∃ k w, i = .ldkey k w) ∨ (∃ d, i = .setdir d) ∨ ∃ h w, i = .ldblk h w) → exec i s = .next t →
    ∃ u, exec i t = .next u ∧ u = { t with responses := u.responses }

/-! ### Reset and invariants (10_state R22, R23; 43_loop_controller R100) -/

/-- R22: the reset state, and its views. -/
def Obligations.ResetValues : Prop :=
  (∀ i, State.reset.keyWord i = 0x00000000#32) ∧ State.reset.kv = 0x00#8 ∧ State.reset.dir = .encrypt
    ∧ State.reset.l = 0x00000000#32 ∧ State.reset.r = 0x00000000#32 ∧ State.reset.rnd = 0#6
    ∧ State.reset.busy = false ∧ State.reset.done = false ∧ State.reset.status = 0x00000000#32
    ∧ State.reset.busyLine = false ∧ State.reset.doneLine = false

/-- R22, R23: the invariants hold at reset. -/
def Obligations.ResetMeetsTheInvariants : Prop := State.reset.Inv

/-- R23 (a) to (d): every step, from any state that meets the invariants, leads to a state that meets them. -/
def Obligations.EveryStepKeepsTheInvariants : Prop :=
  ∀ s t : State, s.Inv → step s = .next t → t.Inv

/-- R23: in every state that any schedule of commands, engine steps and resets reaches from reset, (a) to (f). -/
def Obligations.ReachableStatesMeetTheInvariants : Prop :=
  ∀ (ms : List Move) (n : Nat) (t : State), runSteps n { State.reset with schedule := ms } = .next t →
    t.rnd.toNat ≤ 32
      ∧ (t.done = true → t.busy = false ∧ t.rnd = 32#6)
      ∧ (t.busy = true → t.kv = 0xFF#8 ∧ t.done = false)
      ∧ (∀ i : KeyIndex, t.kv.getLsbD i.toNat = false → t.keyWord i = 0#32)
      ∧ (t.status.extractLsb' 4 4 = 0#4 ∧ t.status.extractLsb' 22 10 = 0#10)
      ∧ (t.status.getLsbD 3 = true ↔ t.status.extractLsb' 8 8 = 0xFF#8)

/-- R15: what writes `RND`: reset and an accepted `START` (to 0), and `E-ROUND`, enabled below 32 only (by 1). -/
def Obligations.WritersOfTheRoundCounter : Prop :=
  ∀ s t : State, step s = .next t → t.rnd ≠ s.rnd →
    (s.resetNext ∧ t.rnd = 0#6)
      ∨ ((∃ cw, s.commandNext cw ∧ decode cw = .ok .start) ∧ s.busy = false ∧ s.kv = 0xFF#8 ∧ t.rnd = 0#6)
      ∨ (s.engineNext ∧ s.busy = true ∧ s.rnd.toNat < 32 ∧ t.rnd.toNat = s.rnd.toNat + 1)

/-- R12: `KV[i]` is set by an accepted `LDKEY i` and by nothing else, and cleared by reset and by nothing else. -/
def Obligations.WritersOfTheKeyFlags : Prop :=
  ∀ (s t : State) (i : KeyIndex), step s = .next t →
    (s.kv.getLsbD i.toNat = false → t.kv.getLsbD i.toNat = true →
      s.busy = false ∧ ∃ cw w, s.commandNext cw ∧ decode cw = .ok (.ldkey i w))
    ∧ (s.kv.getLsbD i.toNat = true → t.kv.getLsbD i.toNat = false → s.resetNext)

/-- R17: `DONE` is set by `E-FINAL` and by nothing else, and cleared by an accepted `START`, an accepted `LDBLK` and reset, and
by nothing else. -/
def Obligations.WritersOfDone : Prop :=
  ∀ s t : State, step s = .next t →
    (s.done = false → t.done = true → s.engineNext ∧ s.busy = true ∧ s.rnd = 32#6)
    ∧ (s.done = true → t.done = false →
        s.resetNext ∨ (s.busy = false ∧ ∃ cw, s.commandNext cw
          ∧ ((decode cw = .ok .start ∧ s.kv = 0xFF#8) ∨ ∃ h w, decode cw = .ok (.ldblk h w))))

/-- R17: while `DONE` stays 1, `L` and `R` stay as `E-FINAL` left them. The invariants are the premise: in a state they rule out
(`BUSY` and `DONE` both 1) the engine would go on. -/
def Obligations.DoneKeepsTheResult : Prop :=
  ∀ s t : State, s.Inv → s.done = true → step s = .next t → t.done = true → t.l = s.l ∧ t.r = s.r

/-- R100: the transitions of the controller's phases, and no other. -/
def Obligations.PhaseTransitions : Prop :=
  ∀ s t : State, s.Inv → step s = .next t →
    (s.phase = .idle → t.phase = .idle
      ∨ (t.phase = .running ∧ s.kv = 0xFF#8 ∧ ∃ cw, s.commandNext cw ∧ decode cw = .ok .start))
    ∧ (s.phase = .running → (t.phase = .running ∧ ¬ (s.engineNext ∧ s.rnd = 31#6))
      ∨ (t.phase = .finishing ∧ s.engineNext ∧ s.rnd = 31#6)
      ∨ (t.phase = .idle ∧ s.resetNext))
    ∧ (s.phase = .finishing → (t.phase = .finishing ∧ ¬ s.engineNext)
      ∨ (t.phase = .idle ∧ (s.engineNext ∨ s.resetNext)))

/-! ### The key schedule (40_key_schedule) -/

/-- R72, R73: the two key orders in full. -/
def Obligations.KeyOrders : Prop :=
  ((List.range 32).map fun i => (ksel .encrypt (BitVec.ofNat 5 i)).toNat)
      = [0, 1, 2, 3, 4, 5, 6, 7, 0, 1, 2, 3, 4, 5, 6, 7, 0, 1, 2, 3, 4, 5, 6, 7, 7, 6, 5, 4, 3, 2, 1, 0]
    ∧ ((List.range 32).map fun i => (ksel .decrypt (BitVec.ofNat 5 i)).toNat)
      = [0, 1, 2, 3, 4, 5, 6, 7, 7, 6, 5, 4, 3, 2, 1, 0, 7, 6, 5, 4, 3, 2, 1, 0, 7, 6, 5, 4, 3, 2, 1, 0]

/-- R74: the mirror law, of the index and of the round key. -/
def Obligations.MirrorLaw : Prop :=
  ∀ i : Nat, i < 32 →
    ksel .encrypt (BitVec.ofNat 5 i) = ksel .decrypt (BitVec.ofNat 5 (31 - i))
      ∧ ∀ key : KeyWords, rk key .encrypt (BitVec.ofNat 5 i) = rk key .decrypt (BitVec.ofNat 5 (31 - i))

/-! ### The S-box stage (41_sbox_stage) -/

/-- R80, R81: nibble `j` of the result is table `j`'s entry for nibble `j` of the word, nibble 0 being bits 31:28. -/
def Obligations.SubstActsOnEachNibble : Prop :=
  ∀ (S : SBoxBank) (s : Word) (j : Fin 8),
    (substWord S s).extractLsb' (28 - 4 * j.val) 4 = S j (s.extractLsb' (28 - 4 * j.val) 4)

/-- R83: the stage is a bijection, whose inverse goes through the inverse tables. -/
def Obligations.SubstIsABijection : Prop :=
  ∀ S : SBoxBank, Function.Bijective (substWord S)
    ∧ ∀ s, substWord (fun j => (S j).symm) (substWord S s) = s ∧ substWord S (substWord (fun j => (S j).symm) s) = s

/-- R84: with the identity table the stage is the identity. -/
def Obligations.SubstOfTheIdentityTable : Prop :=
  ∀ (S : SBoxBank), (∀ j v, S j v = v) → ∀ s, substWord S s = s

/-! ### The round function (42_round_function) -/

/-- R6, R90, R91, R97: the adder is addition modulo `2^32`; a rotation by `n` moves bit `i` to bit `(i + n) mod 32`, for every count
from 0 to 31; `ROL11` is its fixed instance and joins the fields `t[20:0]` and `t[31:21]`. -/
def Obligations.AdderAndRotator : Prop :=
  (∀ l k : Word, (add32 l k).toNat = (l.toNat + k.toNat) % 2 ^ 32)
    ∧ (∀ (x : Word) (n : Fin 32) (i : Nat), i < 32 → (rol32 x n).getLsbD ((i + n.val) % 32) = x.getLsbD i)
    ∧ (∀ x : Word, rol32 x 0 = x)
    ∧ ∀ t : Word, rol11 t = rol32 t 11 ∧ rol11 t = t.extractLsb' 0 21 ++ t.extractLsb' 21 11

/-- R93, R95: `G` adds, then substitutes, then rotates left by 11 (bit `i` of the substituted sum is bit `(i + 11) mod 32` of
`G`); for a fixed round key it is a bijection, and it is symmetric in its two operands. -/
def Obligations.KeyedFunctionIsABijection : Prop :=
  ∀ (S : SBoxBank) (k : Word),
    (∀ (l : Word) (i : Nat), i < 32 → (keyedG S l k).getLsbD ((i + 11) % 32) = (substWord S (l + k)).getLsbD i)
      ∧ (Function.Bijective fun l => keyedG S l k)
      ∧ ∀ l, keyedG S l k = keyedG S k l

/-- R96: a round is a bijection on pairs, with the inverse that the rule gives, and is the swap after the mix, each of which
is its own inverse. -/
def Obligations.RoundIsInvertible : Prop :=
  ∀ (S : SBoxBank) (k : Word),
    (Function.Bijective fun p : Word × Word => feistelRound S p.1 p.2 k)
      ∧ (∀ l r, (feistelRound S l r k).2 = l
          ∧ (feistelRound S l r k).1 ^^^ keyedG S (feistelRound S l r k).2 k = r)
      ∧ ∀ (swap mix : Word × Word → Word × Word), (∀ a b, swap (a, b) = (b, a)) → (∀ a b, mix (a, b) = (a, b ^^^ keyedG S a k)) →
          (∀ p, feistelRound S p.1 p.2 k = swap (mix p)) ∧ (∀ p, mix (mix p) = p) ∧ ∀ p, swap (swap p) = p

/-! ### The block function and the operation (43_loop_controller) -/

/-- R106: decrypting undoes encrypting and encrypting undoes decrypting, for every key, block and table bank. -/
def Obligations.CryptRoundTrip : Prop :=
  ∀ (S : SBoxBank) (key : KeyWords) (b : Word × Word),
    crypt S key .decrypt (crypt S key .encrypt b) = b ∧ crypt S key .encrypt (crypt S key .decrypt b) = b

/-- R112: under a palindromic key both directions are one function, its own inverse; the all-zero and the all-ones key are
palindromic. -/
def Obligations.PalindromicKeys : Prop :=
  (∀ key : KeyWords, (∀ j : KeyIndex, keyAt key j = keyAt key (7#3 - j)) →
    (∀ i, rk key .encrypt i = rk key .decrypt i)
      ∧ ∀ (S : SBoxBank) (b : Word × Word), crypt S key .encrypt b = crypt S key .decrypt b
          ∧ crypt S key .encrypt (crypt S key .encrypt b) = b
          ∧ crypt S key .decrypt (crypt S key .decrypt b) = b)
    ∧ ∀ key : KeyWords, ((∀ j, keyAt key j = 0x00000000#32) ∨ ∀ j, keyAt key j = 0xFFFFFFFF#32) →
        ∀ j : KeyIndex, keyAt key j = keyAt key (7#3 - j)

/-- R105: an accepted `START`, 33 engine steps, and whatever command words in between: (a) after any part of the schedule `RND` is
the number of engine steps taken; (b) the registers are those of that many rounds, whatever the words were; (c), (d) after the
33rd the block is `CRYPT` of the block at `START`, and key, flags and direction are as they were. -/
def Obligations.OperationComputesCrypt : Prop :=
  ∀ (s : State) (ms rest : List Move), s.busy = false → s.kv = 0xFF#8 →
    (∀ p, Move.reset p ∉ ms) → ms.count .engine = 32 →
    s.schedule = .command (encode .start) :: (ms ++ .engine :: rest) →
    (∀ n, n ≤ ms.length → ∃ u, runSteps (n + 1) s = .next u
      ∧ u.busy = true ∧ u.done = false ∧ u.rnd.toNat = (ms.take n).count .engine
      ∧ (u.l, u.r) = cryptRounds Config.sbox s.key s.dir (s.l, s.r) ((ms.take n).count .engine)
      ∧ u.key = s.key ∧ u.kv = s.kv ∧ u.dir = s.dir)
    ∧ ∃ t, runSteps (ms.length + 2) s = .next t
        ∧ (t.l, t.r) = crypt Config.sbox s.key s.dir (s.l, s.r)
        ∧ t.busy = false ∧ t.done = true ∧ t.rnd = 32#6 ∧ t.key = s.key ∧ t.kv = s.kv ∧ t.dir = s.dir ∧ t.schedule = rest

/-- R107: after a completed Encrypt operation, `SETDIR DEC` and `START` with no `LDBLK` restore the original block. -/
def Obligations.ChainedDecryptRestoresTheBlock : Prop :=
  ∀ s : State, s.busy = false → s.kv = 0xFF#8 → s.dir = .encrypt →
    s.schedule = .command (encode .start) :: (List.replicate 33 .engine
      ++ [.command (encode (.setdir .decrypt)), .command (encode .start)] ++ List.replicate 33 .engine) →
    ∃ t, runSteps 69 s = .next t ∧ t.l = s.l ∧ t.r = s.r ∧ t.busy = false ∧ t.done = true ∧ t.dir = .decrypt ∧ t.schedule = []

/-- R193: whatever the host has scheduled, once it is used up the engine is idle within 33 steps. That an empty schedule is the
engine's turn is the model's form of weak fairness (log entry 1). The invariants are the premise: they rule out the values of `RND`
above 32. -/
def Obligations.EngineFinishesWithin33Steps : Prop :=
  ∀ s : State, s.Inv → ∃ t, runSteps (s.schedule.length + 33) s = .next t ∧ t.busy = false ∧ t.schedule = []

/-! ### The host's contract (45_host_message_processor, 20_memory R34 to R36) -/

/-- R142: padding adds the least number of filler bytes that makes the length a multiple of 8, after the message unchanged. The
statement does not rest on the filler byte's value, which the spec marks as its own general knowledge (log entry 10). -/
def Obligations.PaddingRule : Prop :=
  ∀ m : List Byte, (pad m).length % 8 = 0
    ∧ ∃ n, n = (8 - m.length % 8) % 8 ∧ n < 8 ∧ pad m = m ++ List.replicate n filler

/-- R34, R35, R36, R143: eight digits are read most significant first, and a word is written as the eight digits that read back as
it; a block's `L` is its first eight digits and its `R` its last eight, going in and coming out; a byte of a message is written as
its high nibble, then its low nibble. -/
def Obligations.DigitsAreBigEndian : Prop :=
  (∀ d : Fin 8 → Nibble, (wordOfDigits (List.ofFn d)).toNat = ∑ j : Fin 8, (d j).toNat * 16 ^ (7 - j.val))
    ∧ (∀ w : Word, (digitsOfWord w).length = 8 ∧ wordOfDigits (digitsOfWord w) = w)
    ∧ (∀ ds : List Nibble, ds.length = 16 →
        (blockOfChunk ds).1 = wordOfDigits (ds.take 8) ∧ (blockOfChunk ds).2 = wordOfDigits (ds.drop 8)
          ∧ digitsOfBlock (blockOfChunk ds) = ds)
    ∧ (∀ b : Word × Word, (digitsOfBlock b).take 8 = digitsOfWord b.1 ∧ (digitsOfBlock b).drop 8 = digitsOfWord b.2
        ∧ blockOfChunk (digitsOfBlock b) = b)
    ∧ ∀ m : List Byte, (toHex m).length = 2 * m.length
        ∧ ∀ (i : Nat) (b : Byte), m[i]? = some b →
            (toHex m)[2 * i]? = some (b.extractLsb' 4 4) ∧ (toHex m)[2 * i + 1]? = some (b.extractLsb' 0 4)

/-- R141: a key string is refused with KeyFormatError exactly when it is not 64 hexadecimal characters; otherwise key word `i` is
read from characters `8i` to `8i+7`. -/
def Obligations.KeyStringRule : Prop :=
  (∀ t : List Char, (parseKey t = .error .keyFormat ↔ t.length ≠ 64 ∨ ∃ c ∈ t, hexValue c = none))
    ∧ ∀ (t : List Char) (key : KeyWords) (i : KeyIndex), parseKey t = .ok key →
        ∃ ds, parseHex ((t.drop (8 * i.toNat)).take 8) = some ds ∧ keyAt key i = wordOfDigits ds

/-- R149, R144: an input with a partial chunk is refused unless `HOST_TRUNCATE` is set; any other input, and with `HOST_TRUNCATE` every
input, gives its whole chunks, in order and no more: block `j` has `L` from digits `16j` to `16j+7` and `R` from digits `16j+8` to
`16j+15`. -/
def Obligations.MisalignedInputRule : Prop :=
  ∀ (p : HostParams) (ds : List Nibble),
    (ds.length % 16 ≠ 0 → p.truncate = false → decryptBlocks p ds = .error .blockAlignment)
      ∧ (ds.length % 16 = 0 ∨ p.truncate = true → ∃ bs, decryptBlocks p ds = .ok bs ∧ bs.length = ds.length / 16
          ∧ ∀ j, j < ds.length / 16 →
              bs[j]? = some (wordOfDigits ((ds.drop (16 * j)).take 8), wordOfDigits ((ds.drop (16 * j + 8)).take 8)))

/-- R147, R152: decrypting the digits of an encrypted message under the same key and tables gives the hexadecimal form of the
padded message. -/
def Obligations.MessageRoundTrip : Prop :=
  ∀ (p : HostParams) (S : SBoxBank) (key : KeyWords) (text : List Char),
    ∃ bs, decryptBlocks p (outputDigits S key .encrypt (encryptBlocks p text)) = .ok bs
      ∧ outputDigits S key .decrypt bs = toHex (pad (p.encodeText text))
end

