-- ==== Sys2Proof/Laws/State.lean ====
section
/-! SUPPORT. What each named update of the state does to each field, true by unfolding the one update, so that no later proof unfolds
a record update. -/

namespace Sys2Proof.Machine

variable (s : State)


@[simp] theorem respond_key (c : ResponseCode) (x : Word) : (s.respond c x).key = s.key := rfl
@[simp] theorem respond_kv (c : ResponseCode) (x : Word) : (s.respond c x).kv = s.kv := rfl
@[simp] theorem respond_dir (c : ResponseCode) (x : Word) : (s.respond c x).dir = s.dir := rfl
@[simp] theorem respond_l (c : ResponseCode) (x : Word) : (s.respond c x).l = s.l := rfl
@[simp] theorem respond_r (c : ResponseCode) (x : Word) : (s.respond c x).r = s.r := rfl
@[simp] theorem respond_rnd (c : ResponseCode) (x : Word) : (s.respond c x).rnd = s.rnd := rfl
@[simp] theorem respond_busy (c : ResponseCode) (x : Word) : (s.respond c x).busy = s.busy := rfl
@[simp] theorem respond_done (c : ResponseCode) (x : Word) : (s.respond c x).done = s.done := rfl
@[simp] theorem respond_schedule (c : ResponseCode) (x : Word) : (s.respond c x).schedule = s.schedule := rfl
@[simp] theorem respond_responses (c : ResponseCode) (x : Word) : (s.respond c x).responses = s.responses ++ [⟨c, x⟩] := rfl


@[simp] theorem setKeyWord_key (i : KeyIndex) (w : Word) : (s.setKeyWord i w).key = s.key.set i.toNat w i.isLt := rfl
@[simp] theorem setKeyWord_kv (i : KeyIndex) (w : Word) : (s.setKeyWord i w).kv = s.kv := rfl
@[simp] theorem setKeyWord_dir (i : KeyIndex) (w : Word) : (s.setKeyWord i w).dir = s.dir := rfl
@[simp] theorem setKeyWord_l (i : KeyIndex) (w : Word) : (s.setKeyWord i w).l = s.l := rfl
@[simp] theorem setKeyWord_r (i : KeyIndex) (w : Word) : (s.setKeyWord i w).r = s.r := rfl
@[simp] theorem setKeyWord_rnd (i : KeyIndex) (w : Word) : (s.setKeyWord i w).rnd = s.rnd := rfl
@[simp] theorem setKeyWord_busy (i : KeyIndex) (w : Word) : (s.setKeyWord i w).busy = s.busy := rfl
@[simp] theorem setKeyWord_done (i : KeyIndex) (w : Word) : (s.setKeyWord i w).done = s.done := rfl
@[simp] theorem setKeyWord_schedule (i : KeyIndex) (w : Word) : (s.setKeyWord i w).schedule = s.schedule := rfl
@[simp] theorem setKeyWord_responses (i : KeyIndex) (w : Word) : (s.setKeyWord i w).responses = s.responses := rfl


@[simp] theorem markKeyLoaded_key (i : KeyIndex) : (s.markKeyLoaded i).key = s.key := rfl
@[simp] theorem markKeyLoaded_kv (i : KeyIndex) : (s.markKeyLoaded i).kv = s.kv ||| (1#8 <<< i.toNat) := rfl
@[simp] theorem markKeyLoaded_dir (i : KeyIndex) : (s.markKeyLoaded i).dir = s.dir := rfl
@[simp] theorem markKeyLoaded_l (i : KeyIndex) : (s.markKeyLoaded i).l = s.l := rfl
@[simp] theorem markKeyLoaded_r (i : KeyIndex) : (s.markKeyLoaded i).r = s.r := rfl
@[simp] theorem markKeyLoaded_rnd (i : KeyIndex) : (s.markKeyLoaded i).rnd = s.rnd := rfl
@[simp] theorem markKeyLoaded_busy (i : KeyIndex) : (s.markKeyLoaded i).busy = s.busy := rfl
@[simp] theorem markKeyLoaded_done (i : KeyIndex) : (s.markKeyLoaded i).done = s.done := rfl
@[simp] theorem markKeyLoaded_schedule (i : KeyIndex) : (s.markKeyLoaded i).schedule = s.schedule := rfl
@[simp] theorem markKeyLoaded_responses (i : KeyIndex) : (s.markKeyLoaded i).responses = s.responses := rfl


@[simp] theorem setHalf_key (h : Half) (w : Word) : (s.setHalf h w).key = s.key := by cases h <;> rfl
@[simp] theorem setHalf_kv (h : Half) (w : Word) : (s.setHalf h w).kv = s.kv := by cases h <;> rfl
@[simp] theorem setHalf_dir (h : Half) (w : Word) : (s.setHalf h w).dir = s.dir := by cases h <;> rfl
@[simp] theorem setHalf_rnd (h : Half) (w : Word) : (s.setHalf h w).rnd = s.rnd := by cases h <;> rfl
@[simp] theorem setHalf_busy (h : Half) (w : Word) : (s.setHalf h w).busy = s.busy := by cases h <;> rfl
@[simp] theorem setHalf_done (h : Half) (w : Word) : (s.setHalf h w).done = s.done := by cases h <;> rfl
@[simp] theorem setHalf_schedule (h : Half) (w : Word) : (s.setHalf h w).schedule = s.schedule := by cases h <;> rfl
@[simp] theorem setHalf_responses (h : Half) (w : Word) : (s.setHalf h w).responses = s.responses := by cases h <;> rfl

@[simp] theorem setHalf_left_l (w : Word) : (s.setHalf .left w).l = w := rfl
@[simp] theorem setHalf_left_r (w : Word) : (s.setHalf .left w).r = s.r := rfl
@[simp] theorem setHalf_right_l (w : Word) : (s.setHalf .right w).l = s.l := rfl
@[simp] theorem setHalf_right_r (w : Word) : (s.setHalf .right w).r = w := rfl


@[simp] theorem applyReset_key : (s.applyReset).key = State.reset.key := rfl
@[simp] theorem applyReset_kv : (s.applyReset).kv = State.reset.kv := rfl
@[simp] theorem applyReset_dir : (s.applyReset).dir = State.reset.dir := rfl
@[simp] theorem applyReset_l : (s.applyReset).l = State.reset.l := rfl
@[simp] theorem applyReset_r : (s.applyReset).r = State.reset.r := rfl
@[simp] theorem applyReset_rnd : (s.applyReset).rnd = State.reset.rnd := rfl
@[simp] theorem applyReset_busy : (s.applyReset).busy = State.reset.busy := rfl
@[simp] theorem applyReset_done : (s.applyReset).done = State.reset.done := rfl
@[simp] theorem applyReset_schedule : (s.applyReset).schedule = s.schedule := rfl
@[simp] theorem applyReset_responses : (s.applyReset).responses = s.responses := rfl


@[simp] theorem presentCommand_key (cw : CommandWord) : (s.presentCommand cw).key = s.key := rfl
@[simp] theorem presentCommand_kv (cw : CommandWord) : (s.presentCommand cw).kv = s.kv := rfl
@[simp] theorem presentCommand_dir (cw : CommandWord) : (s.presentCommand cw).dir = s.dir := rfl
@[simp] theorem presentCommand_l (cw : CommandWord) : (s.presentCommand cw).l = s.l := rfl
@[simp] theorem presentCommand_r (cw : CommandWord) : (s.presentCommand cw).r = s.r := rfl
@[simp] theorem presentCommand_rnd (cw : CommandWord) : (s.presentCommand cw).rnd = s.rnd := rfl
@[simp] theorem presentCommand_busy (cw : CommandWord) : (s.presentCommand cw).busy = s.busy := rfl
@[simp] theorem presentCommand_done (cw : CommandWord) : (s.presentCommand cw).done = s.done := rfl
@[simp] theorem presentCommand_schedule (cw : CommandWord) : (s.presentCommand cw).schedule = .command cw :: s.schedule := rfl
@[simp] theorem presentCommand_responses (cw : CommandWord) : (s.presentCommand cw).responses = s.responses := rfl


@[simp] theorem beginOperation_key : (s.beginOperation).key = s.key := rfl
@[simp] theorem beginOperation_kv : (s.beginOperation).kv = s.kv := rfl
@[simp] theorem beginOperation_dir : (s.beginOperation).dir = s.dir := rfl
@[simp] theorem beginOperation_l : (s.beginOperation).l = s.l := rfl
@[simp] theorem beginOperation_r : (s.beginOperation).r = s.r := rfl
@[simp] theorem beginOperation_rnd : (s.beginOperation).rnd = 0#6 := rfl
@[simp] theorem beginOperation_busy : (s.beginOperation).busy = true := rfl
@[simp] theorem beginOperation_done : (s.beginOperation).done = false := rfl
@[simp] theorem beginOperation_schedule : (s.beginOperation).schedule = s.schedule := rfl
@[simp] theorem beginOperation_responses : (s.beginOperation).responses = s.responses := rfl


@[simp] theorem engineRound_key (S : SBoxBank) : (s.engineRound S).key = s.key := rfl
@[simp] theorem engineRound_kv (S : SBoxBank) : (s.engineRound S).kv = s.kv := rfl
@[simp] theorem engineRound_dir (S : SBoxBank) : (s.engineRound S).dir = s.dir := rfl
@[simp] theorem engineRound_l (S : SBoxBank) : (s.engineRound S).l = (feistelRound S s.l s.r (rk s.key s.dir (s.rnd.setWidth 5))).1 := rfl
@[simp] theorem engineRound_r (S : SBoxBank) : (s.engineRound S).r = (feistelRound S s.l s.r (rk s.key s.dir (s.rnd.setWidth 5))).2 := rfl
@[simp] theorem engineRound_rnd (S : SBoxBank) : (s.engineRound S).rnd = s.rnd + 1#6 := rfl
@[simp] theorem engineRound_busy (S : SBoxBank) : (s.engineRound S).busy = s.busy := rfl
@[simp] theorem engineRound_done (S : SBoxBank) : (s.engineRound S).done = s.done := rfl
@[simp] theorem engineRound_schedule (S : SBoxBank) : (s.engineRound S).schedule = s.schedule := rfl
@[simp] theorem engineRound_responses (S : SBoxBank) : (s.engineRound S).responses = s.responses := rfl


@[simp] theorem engineFinal_key : (s.engineFinal).key = s.key := rfl
@[simp] theorem engineFinal_kv : (s.engineFinal).kv = s.kv := rfl
@[simp] theorem engineFinal_dir : (s.engineFinal).dir = s.dir := rfl
@[simp] theorem engineFinal_l : (s.engineFinal).l = s.r := rfl
@[simp] theorem engineFinal_r : (s.engineFinal).r = s.l := rfl
@[simp] theorem engineFinal_rnd : (s.engineFinal).rnd = s.rnd := rfl
@[simp] theorem engineFinal_busy : (s.engineFinal).busy = false := rfl
@[simp] theorem engineFinal_done : (s.engineFinal).done = true := rfl
@[simp] theorem engineFinal_schedule : (s.engineFinal).schedule = s.schedule := rfl
@[simp] theorem engineFinal_responses : (s.engineFinal).responses = s.responses := rfl

/-- What a write of a key word is read back as. -/
theorem keyWord_setKeyWord (i j : KeyIndex) (w : Word) :
    (s.setKeyWord i w).keyWord j = if j = i then w else s.keyWord j := by
  unfold State.keyWord keyAt State.setKeyWord
  rw [Vector.getElem_set]
  by_cases h : j = i
  · simp [h]
  · have : i.toNat ≠ j.toNat := fun e => h (BitVec.eq_of_toNat_eq e.symm)
    simp [h, this]

/-- What a write of a block half is read back as. -/
theorem half_setHalf (g h : Half) (w : Word) : (s.setHalf h w).half g = if g = h then w else s.half g := by
  cases g <;> cases h <;> rfl

/-- What setting a valid flag is read back as. -/
theorem kv_markKeyLoaded (i j : KeyIndex) :
    (s.markKeyLoaded i).kv.getLsbD j.toNat = (decide (j = i) || s.kv.getLsbD j.toNat) := by
  rw [markKeyLoaded_kv]
  generalize s.kv = v
  rw [BitVec.getLsbD_or, Bool.or_comm]
  congr 1
  revert i j
  decide

end Sys2Proof.Machine
end

