-- ==== Sys2Proof/Laws/Ops.lean ====
section
/-! SUPPORT. Everything each shared operation can do, said once: later proofs cite these and do not unfold the operation. -/

namespace Sys2Proof.Machine

/-- An accepted command answers `(OK, x)` and nothing else. -/
theorem accept_next_iff (x : Word) (s t : State) : accept x s = .next t ↔ t = s.respond .ok x := by
  simp [accept, eq_comm]

/-- A rejected command answers `(c, 0)` and nothing else. -/
theorem reject_next_iff (c : ResponseCode) (s t : State) : reject c s = .next t ↔ t = s.respond c 0#32 := by
  simp [reject, eq_comm]

theorem whenIdle_of_busy {s : State} (h : s.busy = true) (body : Result) : whenIdle s body = reject .errBusy s := by
  simp [whenIdle, h]

theorem whenIdle_of_idle {s : State} (h : s.busy = false) (body : Result) : whenIdle s body = body := by
  simp [whenIdle, h]

/-- The busy check either rejects or lets the body decide. -/
theorem whenIdle_next_cases {s t : State} {body : Result} (h : whenIdle s body = .next t) :
    (s.busy = true ∧ t = s.respond .errBusy 0#32) ∨ (s.busy = false ∧ body = .next t) := by
  cases hb : s.busy
  · exact .inr ⟨rfl, whenIdle_of_idle hb body ▸ h⟩
  · exact .inl ⟨rfl, (reject_next_iff _ _ _).mp (whenIdle_of_busy hb body ▸ h)⟩

/-- The engine's step is a round, the final exchange, or no step. -/
theorem engineStep_cases (S : SBoxBank) (s : State) :
    (s.busy = true ∧ s.rnd < 32#6 ∧ s.engineStep S = s.engineRound S)
      ∨ (s.busy = true ∧ s.rnd = 32#6 ∧ s.engineStep S = s.engineFinal)
      ∨ ((s.busy = false ∨ 32#6 < s.rnd) ∧ s.engineStep S = s) := by
  unfold State.engineStep State.roundEnabled State.finalEnabled
  cases hb : s.busy
  · simp
  · by_cases h1 : s.rnd < 32#6
    · simp [h1]
    · by_cases h2 : s.rnd = 32#6
      · simp [h2]
      · have h3 : 32#6 < s.rnd := by bv_omega
        simp [h1, h2, h3]

theorem nextMove_of_nil {s : State} (h : s.schedule = []) : s.nextMove = (.engine, s) := by
  simp [State.nextMove, h]

theorem nextMove_of_cons {s : State} {m : Move} {rest : List Move} (h : s.schedule = m :: rest) :
    s.nextMove = (m, { s with schedule := rest }) := by
  simp [State.nextMove, h]

/-- Taking the next move changes the schedule at most. -/
theorem nextMove_frame (s : State) : s.nextMove.2 = { s with schedule := s.nextMove.2.schedule } := by
  unfold State.nextMove
  split <;> rfl

end Sys2Proof.Machine
end

