-- ==== Sys2Proof/Laws/Commands.lean ====
section
/-! SUPPORT. What a command and a move can do, said once: the inversion lemmas behind every invariant. -/

namespace Sys2Proof.Machine

/-- A command that writes no register: it answers and nothing else. -/
def answersOnly (s t : State) : Prop := ∃ c x, t = s.respond c x

/-- Everything `exec` can do: answer only, or, while idle, one of the four writes with the answer `(OK, 0)`. -/
theorem exec_next_cases {i : Instr} {s t : State} (h : exec i s = .next t) :
    answersOnly s t
      ∨ (s.busy = false ∧ ∃ k w, i = .ldkey k w ∧ t = ((s.setKeyWord k w).markKeyLoaded k).respond .ok 0#32)
      ∨ (s.busy = false ∧ ∃ d, i = .setdir d ∧ t = { s with dir := d }.respond .ok 0#32)
      ∨ (s.busy = false ∧ ∃ b w, i = .ldblk b w ∧ t = { s.setHalf b w with done := false }.respond .ok 0#32)
      ∨ (s.busy = false ∧ s.keyOk = true ∧ i = .start ∧ t = s.beginOperation.respond .ok 0#32) := by
  cases i with
  | nop => exact .inl ⟨_, _, (accept_next_iff _ _ _).mp h⟩
  | rdst => exact .inl ⟨_, _, (accept_next_iff _ _ _).mp h⟩
  | rdblk b =>
    obtain ⟨-, rfl⟩ | ⟨-, h⟩ := whenIdle_next_cases h
    · exact .inl ⟨_, _, rfl⟩
    · exact .inl ⟨_, _, (accept_next_iff _ _ _).mp h⟩
  | ldkey k w =>
    obtain ⟨-, rfl⟩ | ⟨hb, h⟩ := whenIdle_next_cases h
    · exact .inl ⟨_, _, rfl⟩
    · exact .inr (.inl ⟨hb, k, w, rfl, (accept_next_iff _ _ _).mp h⟩)
  | setdir d =>
    obtain ⟨-, rfl⟩ | ⟨hb, h⟩ := whenIdle_next_cases h
    · exact .inl ⟨_, _, rfl⟩
    · exact .inr (.inr (.inl ⟨hb, d, rfl, (accept_next_iff _ _ _).mp h⟩))
  | ldblk b w =>
    obtain ⟨-, rfl⟩ | ⟨hb, h⟩ := whenIdle_next_cases h
    · exact .inl ⟨_, _, rfl⟩
    · exact .inr (.inr (.inr (.inl ⟨hb, b, w, rfl, (accept_next_iff _ _ _).mp h⟩)))
  | start =>
    obtain ⟨-, rfl⟩ | ⟨hb, h⟩ := whenIdle_next_cases h
    · exact .inl ⟨_, _, rfl⟩
    · split at h
      · exact .inr (.inr (.inr (.inr ⟨hb, ‹_›, rfl, (accept_next_iff _ _ _).mp h⟩)))
      · exact .inl ⟨_, _, (reject_next_iff _ _ _).mp h⟩

/-- Everything a move can do: a legal command, an illegal word, an engine step, or a reset. -/
theorem runMove_next_cases {S : SBoxBank} {m : Move} {s t : State} (h : runMove S m s = .next t) :
    (∃ cw i, m = .command cw ∧ decode cw = .ok i ∧ exec i s = .next t)
      ∨ (∃ cw e, m = .command cw ∧ decode cw = .error e ∧ t = s.respond .errIllegal 0#32)
      ∨ (m = .engine ∧ t = s.engineStep S)
      ∨ (∃ p, m = .reset p ∧ t = s.applyReset) := by
  cases m with
  | command cw =>
    simp only [runMove, runWord] at h
    split at h
    · exact .inl ⟨cw, _, rfl, ‹_›, h⟩
    · exact .inr (.inl ⟨cw, _, rfl, ‹_›, (reject_next_iff _ _ _).mp h⟩)
  | engine => exact .inr (.inr (.inl ⟨rfl, by simpa [runMove, eq_comm] using h⟩))
  | reset p => exact .inr (.inr (.inr ⟨p, rfl, by simpa [runMove, eq_comm] using h⟩))

end Sys2Proof.Machine
end

