-- ==== Sys2Proof/Laws/Encoding.lean ====
section
/-! SUPPORT. The words of commands as numbers, and command words by their fields (30_encoding R51, R62). -/

namespace Sys2Proof

/-- The word of a command as a number: opcode, index and data in their places. -/
def encodeNumber : Instr → Nat
  | .nop => 0
  | .ldkey i w => 1 * 2 ^ 36 + i.toNat * 2 ^ 32 + w.toNat
  | .setdir d => 2 * 2 ^ 36 + d.bit.toNat * 2 ^ 32
  | .ldblk h w => 3 * 2 ^ 36 + h.bit.toNat * 2 ^ 32 + w.toNat
  | .start => 4 * 2 ^ 36
  | .rdblk h => 5 * 2 ^ 36 + h.bit.toNat * 2 ^ 32
  | .rdst => 6 * 2 ^ 36

/-- Fields that do not overlap are joined as numbers are added. -/
theorem fields_or_eq_add {o k w : Nat} (hw : w < 2 ^ 32) (hk : k < 8) :
    (o <<< 36) ||| (k <<< 32) ||| w = o * 2 ^ 36 + k * 2 ^ 32 + w := by
  have e : o <<< 36 = (o <<< 4) <<< 32 := by rw [← Nat.shiftLeft_add]
  rw [e, ← Nat.shiftLeft_or_distrib, ← Nat.shiftLeft_add_eq_or_of_lt hw,
    ← Nat.shiftLeft_add_eq_or_of_lt (i := 4) (by omega)]
  simp only [Nat.shiftLeft_eq]
  ring

/-- An index in its place. -/
theorem toNat_shiftLeft_index {n : Nat} (x : BitVec n) (hx : x.toNat < 8) : (x.setWidth 40 <<< 32).toNat = x.toNat <<< 32 := by
  rw [BitVec.toNat_shiftLeft, BitVec.toNat_setWidth, Nat.mod_eq_of_lt (a := x.toNat) (by omega)]
  exact Nat.mod_eq_of_lt (by rw [Nat.shiftLeft_eq]; omega)

/-- Data in its place. -/
theorem toNat_setWidth_data (w : Word) : (w.setWidth 40).toNat = w.toNat := by
  have := w.isLt
  rw [BitVec.toNat_setWidth]
  exact Nat.mod_eq_of_lt (by omega)

theorem encode_toNat (i : Instr) : (encode i).toNat = encodeNumber i := by
  cases i with
  | nop => rfl
  | start => rfl
  | rdst => rfl
  | setdir d => cases d <;> decide
  | rdblk h => cases h <;> decide
  | ldkey k w =>
    have h1 : (0x1#40 <<< 36).toNat = 1 <<< 36 := by decide
    rw [encode, BitVec.toNat_or, BitVec.toNat_or, h1, toNat_shiftLeft_index k k.isLt, toNat_setWidth_data,
      fields_or_eq_add w.isLt k.isLt, encodeNumber]
  | ldblk b w =>
    have h3 : (0x3#40 <<< 36).toNat = 3 <<< 36 := by decide
    have hb : b.bit.toNat < 8 := lt_trans b.bit.isLt (by decide)
    rw [encode, BitVec.toNat_or, BitVec.toNat_or, h3, toNat_shiftLeft_index b.bit hb, toNat_setWidth_data,
      fields_or_eq_add w.isLt hb, encodeNumber]

/-- Two words with the same four fields are the same word. -/
theorem commandWord_ext {a b : CommandWord} (ho : opcField a = opcField b) (hz : zField a = zField b)
    (hi : idxField a = idxField b) (hd : dataField a = dataField b) : a = b := by
  apply BitVec.eq_of_toNat_eq
  have g1 := congrArg BitVec.toNat ho
  have g2 := congrArg BitVec.toNat hz
  have g3 := congrArg BitVec.toNat hi
  have g4 := congrArg BitVec.toNat hd
  simp only [opcField, zField, idxField, dataField, BitVec.extractLsb'_toNat, Nat.shiftRight_eq_div_pow] at g1 g2 g3 g4
  have := a.isLt
  have := b.isLt
  omega

end Sys2Proof
end

