-- ==== Sys2Proof/Laws/PerInstr.lean ====
section
/-! SUPPORT. Facts about every command as syntax, one lemma per constructor. -/

namespace Sys2Proof.Laws.EncodesWellFormed

/-- The word of a command is a word of the opcode map, with the reserved bit clear (30_encoding R51, R52). -/
def Statement (i : Instr) : Prop := wellFormedWord (encode i) = true ∧ zField (encode i) = 0#1

/-- A word that a row of the map admits is well formed. -/
theorem wellFormed_of_row {cw : CommandWord} (row : OpcodeRow) (hm : row ∈ opcodeRows) (h : cw &&& row.mask = row.pattern) :
    wellFormedWord cw = true :=
  List.any_eq_true.mpr ⟨row, hm, by simpa [OpcodeRow.admits] using h⟩

theorem nop : Statement .nop := by unfold Statement; decide

theorem start : Statement .start := by unfold Statement; decide

theorem rdst : Statement .rdst := by unfold Statement; decide

theorem setdir (d : Direction) : Statement (.setdir d) := by cases d <;> (unfold Statement; decide)

theorem rdblk (h : Half) : Statement (.rdblk h) := by cases h <;> (unfold Statement; decide)

theorem ldkey (i : KeyIndex) (w : Word) : Statement (.ldkey i w) := by
  refine ⟨wellFormed_of_row ⟨"LDKEY", 0x1000000000#40, 0xF800000000#40⟩ (by decide) ?_, ?_⟩
  · apply BitVec.eq_of_getLsbD_eq
    intro j hj
    interval_cases j <;> simp [encode]
  · apply BitVec.eq_of_getLsbD_eq
    intro j hj
    interval_cases j
    simp [encode, zField]

theorem ldblk (h : Half) (w : Word) : Statement (.ldblk h w) := by
  refine ⟨wellFormed_of_row ⟨"LDBLK", 0x3000000000#40, 0xFE00000000#40⟩ (by decide) ?_, ?_⟩
  · apply BitVec.eq_of_getLsbD_eq
    intro j hj
    cases h <;> interval_cases j <;> simp [encode, Half.bit]
  · apply BitVec.eq_of_getLsbD_eq
    intro j hj
    interval_cases j
    cases h <;> simp [encode, zField, Half.bit]

end Sys2Proof.Laws.EncodesWellFormed
end

