-- ==== Sys2Proof/Laws/Step.lean ====
section
/-! SUPPORT. What a step of the machine can do, said once, and the induction over a run, packaged once. -/

namespace Sys2Proof.Machine

/-- The state with its next move taken off the schedule. -/
def State.popped (s : State) : State := { s with schedule := s.schedule.tail }

theorem nextMove_of_head {s : State} {m : Move} (h : s.schedule.head? = some m) : s.nextMove = (m, s.popped) := by
  cases hs : s.schedule with
  | nil => simp [hs] at h
  | cons a rest =>
    obtain rfl : a = m := by simpa [hs] using h
    rw [nextMove_of_cons hs, State.popped, hs]
    rfl

theorem nextMove_of_engineNext {s : State} (h : s.engineNext) : s.nextMove = (.engine, s.popped) := by
  rcases h with h | h
  · rw [nextMove_of_nil h, State.popped, h]
    cases s
    simp_all
  · exact nextMove_of_head h

/-- The host's, the engine's and the reset's turns exclude each other, and a turn of the host's has one word. -/
theorem commandNext_excludes {s : State} {cw : CommandWord} (h : s.commandNext cw) :
    ¬ s.engineNext ∧ ¬ s.resetNext ∧ ∀ c, s.commandNext c → c = cw := by
  refine ⟨?_, ?_, fun c hc => ?_⟩
  · rintro (h' | h') <;> simp [State.commandNext, h'] at h
  · rintro ⟨p, h'⟩
    simp [State.commandNext, h'] at h
  · simpa [State.commandNext, h, eq_comm] using hc

/-- Everything a step can do. -/
theorem step_next_cases {s t : State} (h : step s = .next t) :
    (∃ cw i, s.commandNext cw ∧ decode cw = .ok i ∧ exec i s.popped = .next t)
      ∨ (∃ cw e, s.commandNext cw ∧ decode cw = .error e ∧ t = s.popped.respond .errIllegal 0#32)
      ∨ (s.engineNext ∧ t = s.popped.engineStep Config.sbox)
      ∨ (s.resetNext ∧ t = s.popped.applyReset) := by
  unfold step at h
  cases hs : s.schedule with
  | nil =>
    have he : s.engineNext := .inl hs
    rw [nextMove_of_engineNext he] at h
    exact .inr (.inr (.inl ⟨he, by simpa [runMove, eq_comm] using h⟩))
  | cons m rest =>
    have hm : s.schedule.head? = some m := by simp [hs]
    rw [nextMove_of_head hm] at h
    obtain ⟨cw, i, rfl, hd, h⟩ | ⟨cw, e, rfl, hd, h⟩ | ⟨rfl, h⟩ | ⟨p, rfl, h⟩ := runMove_next_cases h
    · exact .inl ⟨cw, i, hm, hd, h⟩
    · exact .inr (.inl ⟨cw, e, hm, hd, h⟩)
    · exact .inr (.inr (.inl ⟨.inr hm, h⟩))
    · exact .inr (.inr (.inr ⟨⟨p, hm⟩, h⟩))

/-- The engine's steps never touch the key, its flags, the direction, the schedule or the responses. -/
theorem engineStep_frame (S : SBoxBank) (s : State) :
    (s.engineStep S).key = s.key ∧ (s.engineStep S).kv = s.kv ∧ (s.engineStep S).dir = s.dir
      ∧ (s.engineStep S).schedule = s.schedule ∧ (s.engineStep S).responses = s.responses := by
  obtain ⟨-, -, e⟩ | ⟨-, -, e⟩ | ⟨-, e⟩ := engineStep_cases S s <;> rw [e] <;> simp

/-- A run of one more step. -/
theorem runSteps_succ {n : Nat} {s t : State} (h : step s = .next t) : runSteps (n + 1) s = runSteps n t := by
  have hc : Sys2Proof.core.step s = .next t := h
  simp only [runSteps, Host.Core.run, hc]
  rfl

/-- What every step keeps, every run keeps. -/
theorem runSteps_keeps {P : State → Prop} (hstep : ∀ s t, P s → step s = .next t → P t) (n : Nat) :
    ∀ s t, P s → runSteps n s = .next t → P t := by
  induction n with
  | zero =>
    intro s t hs h
    cases h
    exact hs
  | succ n ih =>
    intro s t hs h
    cases hu : step s with
    | next u => exact ih u t (hstep s u hs hu) (runSteps_succ hu ▸ h)
    | fault r => cases r
    | refused r =>
      have hc : Sys2Proof.core.step s = .refused r := hu
      simp [runSteps, Host.Core.run, hc] at h

end Sys2Proof.Machine
end

