-- ==== Sys2Proof/Machine/HostSession.lean ====
section
/-! DEFINITION. The host at work on one engine (45_host_message_processor R145): it presents commands, looks at the responses, repeats
`RDST` until the engine is idle, and takes its output from the responses of `RDBLK64`. Its moves are moves of the machine. -/

namespace Sys2Proof.Message

open Sys2Proof.Machine

/-- A host working on an engine. -/
structure Session where
  /-- The engine's state. -/
  state : State
  /-- The moves made since the session began, the engine's and the host's, oldest first. -/
  moves : List Move
  /-- How many turns the engine gets before each of the host's commands to come. The spec fixes none of them (20_memory R44, R61);
  past the end of the list log entry 13 says what the host does. -/
  pace : List Nat
  deriving DecidableEq, Repr

/-- A session begins. -/
def Session.start (s : State) (pace : List Nat) : Session where
  state := s
  moves := []
  pace := pace

/-- The engine gets `n` turns and the host presents `i` (R32, R44). -/
def Session.turn (n : Nat) (i : Instr) : List Move := List.replicate n .engine ++ asMoves [i]

/-- The host presents `i` after `n` turns of the engine and takes the response (R32). -/
def Session.send (S : SBoxBank) (n : Nat) (i : Instr) (h : Session) : Option (Response × Session) :=
  match runMoves S (Session.turn n i) h.state with
  | .next t => t.responses.getLast?.map fun x => (x, { h with state := t, moves := h.moves ++ Session.turn n i })
  | _ => none

/-- The same at the session's own pace. -/
def Session.ask (S : SBoxBank) (i : Instr) (h : Session) : Option (Response × Session) :=
  Session.send S (h.pace.headD 0) i { h with pace := h.pace.tail }

/-- Commands one after the other, each of them checked to be answered `OK` (70_reset_and_hazards R183, R184). -/
def Session.sendAll (S : SBoxBank) : List Instr → Session → Option Session
  | [], h => some h
  | i :: is, h =>
    match h.ask S i with
    | some (x, g) => if x.code = .ok then g.sendAll S is else none
    | none => none

/-- One poll of `WAIT`: `RDST`, and whether `RDATA[0] = 1`. -/
def Session.poll (S : SBoxBank) (n : Nat) (h : Session) : Option (Bool × Session) :=
  (Session.send S n .rdst h).map fun r => (r.1.data.getLsbD 0, r.2)

/-- The engine's turns before a poll past the end of the pace: those of a whole operation (R193). Irreducible, so that
no proof unfolds 33 engine steps by accident. -/
@[irreducible] def Session.lastTurns : Nat := 33

/-- `WAIT` (30_encoding R61): repeat `RDST` until `RDATA[0] = 0`. Past the end of the pace the engine has all its turns first, since
an enabled engine step is eventually taken (R193). -/
def Session.waitFrom (S : SBoxBank) : List Nat → Session → Option Session
  | [], h =>
    match Session.poll S Session.lastTurns { h with pace := [] } with
    | some (false, g) => some g
    | _ => none
  | n :: pace, h =>
    match Session.poll S n { h with pace := pace } with
    | some (true, g) => g.waitFrom S pace
    | some (false, g) => some g
    | none => none

/-- `WAIT` at the session's own pace. -/
def Session.waitIdle (S : SBoxBank) (h : Session) : Option Session := h.waitFrom S h.pace

/-- `RDBLK64` (R61): the output block is taken from the two responses. -/
def Session.readBlock (S : SBoxBank) (h : Session) : Option ((Word × Word) × Session) :=
  match h.ask S (.rdblk .left) with
  | some (x, g) =>
    match g.ask S (.rdblk .right) with
    | some (y, k) => (blockOfResponses x y).map fun b => (b, k)
    | none => none
  | none => none

/-- One block (R145): `BLK64`, `START`, `WAIT`, `RDBLK64`. -/
def Session.block (S : SBoxBank) (b : Word × Word) (h : Session) : Option ((Word × Word) × Session) :=
  match h.sendAll S (blk64 b ++ [.start]) with
  | some g =>
    match g.waitIdle S with
    | some k => k.readBlock S
    | none => none
  | none => none

/-- The loop over the chunks (R145, R144): the output blocks, in the order of the input blocks. -/
def Session.blocks (S : SBoxBank) : List (Word × Word) → Session → Option (List (Word × Word) × Session)
  | [], h => some ([], h)
  | b :: bs, h =>
    match h.block S b with
    | some (o, g) => (g.blocks S bs).map fun r => (o :: r.1, r.2)
    | none => none

/-- A message under the key that the engine holds ("once for many messages under one key", R145): the direction once, then the blocks. -/
def Session.messageBody (S : SBoxBank) (d : Direction) (bs : List (Word × Word)) (h : Session) :
    Option (List (Word × Word) × Session) :=
  match h.sendAll S [.setdir d] with
  | some g => g.blocks S bs
  | none => none

/-- A message (R145): `KEY256`, then the message under that key. -/
def Session.message (S : SBoxBank) (key : KeyWords) (d : Direction) (bs : List (Word × Word)) (h : Session) :
    Option (List (Word × Word) × Session) :=
  match h.sendAll S (key256 key) with
  | some g => g.messageBody S d bs
  | none => none

/-- The output digits of a message (R145): those of the blocks read from the engine, in order. -/
def Session.messageDigits (S : SBoxBank) (key : KeyWords) (d : Direction) (bs : List (Word × Word)) (h : Session) :
    Option (List Nibble × Session) :=
  (h.message S key d bs).map fun r => (r.1.flatMap digitsOfBlock, r.2)

/-- The output as text, in the host's digit case (R145 `HOST_HEX_CASE`). -/
def Session.messageText (p : HostParams) (S : SBoxBank) (key : KeyWords) (d : Direction) (bs : List (Word × Word)) (h : Session) :
    Option (List Char × Session) :=
  (h.messageDigits S key d bs).map fun r => (hexText p.hexCase r.1, r.2)

/-- Encrypting a message text under an external key (R141 to R145): KeyFormatError before any command, else the hexadecimal output
and the session after it, or nothing where a response was not `OK` (log entry 13). -/
def encryptMessage (p : HostParams) (S : SBoxBank) (keyText text : List Char) (h : Session) :
    Except HostError (Option (List Char × Session)) :=
  (parseKey keyText).map fun key => h.messageText p S key .encrypt (encryptBlocks p text)

/-- Decrypting a string of digits under an external key (R147, R149): the hexadecimal form of the padded plaintext. Both errors are
found before any command; the spec gives no order between them, and that KeyFormatError is reported where both hold is the
model's choice, DESIGN CHOICE, log entry 10. -/
def decryptMessage (p : HostParams) (S : SBoxBank) (keyText : List Char) (ds : List Nibble) (h : Session) :
    Except HostError (Option (List Char × Session)) :=
  match parseKey keyText with
  | .error e => .error e
  | .ok key => (decryptBlocks p ds).map fun bs => h.messageText p S key .decrypt bs

end Sys2Proof.Message
end

