-- ==== Sys2Proof/Laws/HostSession.lean ====
section
/-! SUPPORT. What the host's session on an engine does: from an idle engine, at every pace, it reads the block function's outputs. -/

namespace Sys2Proof.Machine

theorem runMoves_cons {S : SBoxBank} {m : Move} {s u : State} (h : runMove S m s = .next u) (ms : List Move) :
    runMoves S (m :: ms) s = runMoves S ms u := by
  simp only [runMoves, h]

/-- A run of moves goes through the state after its first move. -/
theorem runMoves_cons_cases {S : SBoxBank} {m : Move} {ms : List Move} {s t : State} (h : runMoves S (m :: ms) s = .next t) :
    ∃ u, runMove S m s = .next u ∧ runMoves S ms u = .next t := by
  cases hm : runMove S m s with
  | next u => exact ⟨u, rfl, runMoves_cons hm ms ▸ h⟩
  | fault r => simp only [runMoves, hm] at h; cases h
  | refused r => simp only [runMoves, hm] at h; cases h

theorem runMoves_append {S : SBoxBank} {ms : List Move} {s t : State} (h : runMoves S ms s = .next t) (ns : List Move) :
    runMoves S (ms ++ ns) s = runMoves S ns t := by
  induction ms generalizing s with
  | nil => cases h; rfl
  | cons m ms ih =>
    obtain ⟨u, hu, h⟩ := runMoves_cons_cases h
    rw [List.cons_append, runMoves_cons hu, ih h]

/-- Two outcomes that differ in the schedule only. -/
def SameButSchedule (ms : List Move) (o o' : Result) : Prop := ∃ t, o = .next t ∧ o' = .next { t with schedule := ms }

theorem whenIdle_withSchedule {s : State} {ms : List Move} {body body' : Result} (h : SameButSchedule ms body body') :
    SameButSchedule ms (whenIdle s body) (whenIdle { s with schedule := ms } body') := by
  change SameButSchedule ms _ (if s.busy then reject .errBusy { s with schedule := ms } else body')
  unfold whenIdle
  split
  · exact ⟨_, rfl, rfl⟩
  · exact h

/-- No command looks at the schedule. -/
theorem exec_withSchedule (i : Instr) (s : State) (ms : List Move) :
    SameButSchedule ms (exec i s) (exec i { s with schedule := ms }) := by
  cases i with
  | nop => exact ⟨_, rfl, rfl⟩
  | rdst => exact ⟨_, rfl, rfl⟩
  | ldkey k w => exact whenIdle_withSchedule ⟨_, rfl, rfl⟩
  | setdir d => exact whenIdle_withSchedule ⟨_, rfl, rfl⟩
  | ldblk h w => cases h <;> exact whenIdle_withSchedule ⟨_, rfl, rfl⟩
  | rdblk h => cases h <;> exact whenIdle_withSchedule ⟨_, rfl, rfl⟩
  | start =>
    refine whenIdle_withSchedule ?_
    change SameButSchedule ms _ (if s.keyOk then _ else _)
    split <;> exact ⟨_, rfl, rfl⟩

/-- The engine's step does not look at the schedule. -/
theorem engineStep_withSchedule (S : SBoxBank) (s : State) (ms : List Move) :
    State.engineStep S { s with schedule := ms } = { s.engineStep S with schedule := ms } := by
  change (if s.roundEnabled then _ else if s.finalEnabled then _ else _) = _
  unfold State.engineStep
  by_cases hr : s.roundEnabled = true
  · simp only [hr, if_true]; rfl
  · by_cases hf : s.finalEnabled = true
    · simp only [hr, hf, if_true]; rfl
    · simp only [hr, hf]; rfl

/-- No move looks at the schedule. -/
theorem runMove_withSchedule {S : SBoxBank} {m : Move} {s t : State} (h : runMove S m s = .next t) (ms : List Move) :
    runMove S m { s with schedule := ms } = .next { t with schedule := ms } := by
  obtain ⟨cw, i, rfl, hd, h⟩ | ⟨cw, e, rfl, hd, rfl⟩ | ⟨rfl, rfl⟩ | ⟨p, rfl, rfl⟩ := runMove_next_cases h
  · obtain ⟨u, hu, hv⟩ := exec_withSchedule i s ms
    obtain rfl : u = t := by simpa [hu] using h
    simpa only [runMove, runWord, hd] using hv
  · simp only [runMove, runWord, hd]
    rfl
  · exact congrArg Host.Outcome.next (engineStep_withSchedule S s ms)
  · rfl

/-- Moves made one after the other are what the machine makes of them as its schedule. -/
theorem runSteps_of_runMoves {ms : List Move} {s t : State} (h : runMoves Config.sbox ms s = .next t) :
    runSteps ms.length { s with schedule := ms } = .next { t with schedule := [] } := by
  induction ms generalizing s with
  | nil => cases h; rfl
  | cons m ms ih =>
    obtain ⟨u, hu, h⟩ := runMoves_cons_cases h
    rw [List.length_cons, runSteps_succ (t := { u with schedule := ms }) ?_, ih h]
    exact runMove_withSchedule hu ms

/-- `n` engine steps. -/
def engineSteps (S : SBoxBank) : Nat → State → State
  | 0, s => s
  | n + 1, s => engineSteps S n (s.engineStep S)

theorem runMoves_engine (S : SBoxBank) (n : Nat) (s : State) :
    runMoves S (List.replicate n .engine) s = .next (engineSteps S n s) := by
  induction n generalizing s with
  | zero => rfl
  | succ n ih => exact ih _

theorem engineSteps_of_idle {S : SBoxBank} {s : State} (h : s.busy = false) (n : Nat) : engineSteps S n s = s := by
  induction n with
  | zero => rfl
  | succ n ih =>
    obtain ⟨hb, -⟩ | ⟨hb, -⟩ | ⟨-, e⟩ := engineStep_cases S s
    · simp [h] at hb
    · simp [h] at hb
    · rw [engineSteps, e, ih]

/-- `k` engine steps after a `START` on the block `b`, with the key and direction in force: the state of the operation, for `k` up to 33. -/
structure InOperation (S : SBoxBank) (key : KeyWords) (d : Direction) (b : Word × Word) (k : Nat) (s : State) : Prop where
  key_eq : s.key = key
  kv_eq : s.kv = 0xFF#8
  dir_eq : s.dir = d
  running : k ≤ 32 → s.busy = true ∧ s.rnd.toNat = k ∧ (s.l, s.r) = cryptRounds S key d b k
  finished : 32 < k → s.busy = false ∧ (s.l, s.r) = crypt S key d b

variable {S : SBoxBank} {key : KeyWords} {d : Direction} {b : Word × Word} {k : Nat} {s : State}

theorem InOperation.engineStep (h : InOperation S key d b k s) : InOperation S key d b (min (k + 1) 33) (s.engineStep S) := by
  obtain ⟨f1, f2, f3, -, -⟩ := engineStep_frame S s
  refine ⟨f1.trans h.key_eq, f2.trans h.kv_eq, f3.trans h.dir_eq, ?_, ?_⟩
  · intro hk
    obtain ⟨hb, hr, hlr⟩ := h.running (by omega)
    obtain ⟨-, hlt, e⟩ | ⟨-, he, -⟩ | ⟨h' | h', -⟩ := engineStep_cases S s
    · have hk' : min (k + 1) 33 = k + 1 := by omega
      rw [e, hk']
      refine ⟨hb, by rw [engineRound_rnd]; bv_omega, ?_⟩
      have h5 : s.rnd.setWidth 5 = BitVec.ofNat 5 k := by
        apply BitVec.eq_of_toNat_eq
        simp [hr]
      simp only [State.engineRound, cryptRounds, ← hlr, h.key_eq, h.dir_eq, h5]
    · rw [he] at hr; simp at hr; omega
    · simp [hb] at h'
    · bv_omega
  · intro hk
    rcases Nat.lt_or_ge 32 k with h32 | h32
    · obtain ⟨hb, hlr⟩ := h.finished h32
      have e := engineSteps_of_idle (S := S) hb 1
      simp only [engineSteps] at e
      rw [e]
      exact ⟨hb, hlr⟩
    · obtain ⟨hb, hr, hlr⟩ := h.running h32
      obtain rfl : k = 32 := by omega
      have he : s.rnd = 32#6 := by apply BitVec.eq_of_toNat_eq; simpa using hr
      obtain ⟨-, hlt, -⟩ | ⟨-, -, e⟩ | ⟨h' | h', -⟩ := engineStep_cases S s
      · rw [he] at hlt; exact absurd hlt (by decide)
      · rw [e]
        refine ⟨rfl, ?_⟩
        simp only [State.engineFinal, crypt, ← hlr]
      · simp [hb] at h'
      · rw [he] at h'; exact absurd h' (by decide)

theorem InOperation.engineSteps (h : InOperation S key d b k s) (hk : k ≤ 33) (n : Nat) :
    InOperation S key d b (min (k + n) 33) (engineSteps S n s) := by
  induction n generalizing k s with
  | zero => simpa [Machine.engineSteps, Nat.min_eq_left hk] using h
  | succ n ih =>
    have := ih h.engineStep (by omega)
    rwa [show min (min (k + 1) 33 + n) 33 = min (k + (n + 1)) 33 by omega] at this

theorem InOperation.respond (h : InOperation S key d b k s) (c : ResponseCode) (x : Word) :
    InOperation S key d b k (s.respond c x) :=
  ⟨h.key_eq, h.kv_eq, h.dir_eq, h.running, h.finished⟩

theorem InOperation.busy_iff (h : InOperation S key d b k s) : s.busy = true ↔ k ≤ 32 := by
  constructor
  · intro hb
    by_contra hk
    simp [(h.finished (by omega)).1] at hb
  · exact fun hk => (h.running hk).1

/-- Bit 0 of the status word is `BUSY`. -/
theorem status_bit_zero (s : State) : s.status.getLsbD 0 = s.busy := by
  unfold State.status
  cases s.busy <;> simp

end Sys2Proof.Machine

namespace Sys2Proof.Message

open Sys2Proof.Machine

variable {S : SBoxBank} {key : KeyWords} {d : Direction}

/-- From `h` to `g` the host presented exactly the commands `is`, and the engine is where the moves made in between lead. -/
def Session.Did (S : SBoxBank) (h g : Session) (is : List Instr) : Prop :=
  ∃ ms, g.moves = h.moves ++ ms ∧ runMoves S ms h.state = .next g.state
    ∧ (ms.filter fun m => decide (m ≠ .engine)) = asMoves is

theorem Session.Did.refl (h : Session) : h.Did S h [] := ⟨[], by simp, rfl, rfl⟩

theorem Session.Did.trans {h g k : Session} {is js : List Instr} (hg : h.Did S g is) (gk : g.Did S k js) :
    h.Did S k (is ++ js) := by
  obtain ⟨ms, m1, m2, m3⟩ := hg
  obtain ⟨ns, n1, n2, n3⟩ := gk
  refine ⟨ms ++ ns, by rw [n1, m1, List.append_assoc], by rw [runMoves_append m2, n2], ?_⟩
  rw [List.filter_append, m3, n3, asMoves, asMoves, asMoves, List.map_append]

/-- The pace of a session does not matter to what was done in it. -/
theorem Session.Did.anyPace {h g : Session} {p : List Nat} {is : List Instr} (hg : Session.Did S { h with pace := p } g is) :
    h.Did S g is := by
  obtain ⟨ms, m1, m2, m3⟩ := hg
  exact ⟨ms, m1, m2, m3⟩

theorem wait_zero : wait 0 = [.rdst] := rfl

theorem wait_succ (n : Nat) : wait (n + 1) = [.rdst] ++ wait n := rfl

/-- That every command decodes back from its word is a statement of its own; the session rests on it. -/
abbrev DecodesBack : Prop := ∀ i : Instr, decode (encode i) = .ok i

variable (hde : DecodesBack)
include hde

/-- What presenting a command does, the engine having had `n` turns. -/
theorem Session.send_spec {n : Nat} {i : Instr} {h : Session} {v : State} {c : ResponseCode} {x : Word}
    (he : exec i (engineSteps S n h.state) = .next (v.respond c x)) :
    ∃ g, Session.send S n i h = some (⟨c, x⟩, g) ∧ g.state = v.respond c x ∧ g.pace = h.pace ∧ h.Did S g [i] := by
  have hr : runMoves S (Session.turn n i) h.state = .next (v.respond c x) := by
    rw [Session.turn, runMoves_append (runMoves_engine S n h.state)]
    exact runMoves_cons (by simpa only [runMove, runWord, hde i] using he) []
  refine ⟨{ h with state := v.respond c x, moves := h.moves ++ Session.turn n i }, ?_, rfl, rfl, _, rfl, hr, ?_⟩
  · simp [Session.send, hr]
  · simp [Session.turn, asMoves]

/-- Presenting a command to an idle engine, at any pace. -/
theorem Session.ask_idle {i : Instr} {h : Session} {v : State} {c : ResponseCode} {x : Word} (hb : h.state.busy = false)
    (he : exec i h.state = .next (v.respond c x)) :
    ∃ g, h.ask S i = some (⟨c, x⟩, g) ∧ g.state = v.respond c x ∧ h.Did S g [i] := by
  obtain ⟨g, h1, h2, -, h4⟩ := Session.send_spec (S := S) hde (n := h.pace.headD 0) (h := { h with pace := h.pace.tail })
    (by simpa only [engineSteps_of_idle hb] using he)
  exact ⟨g, h1, h2, h4.anyPace⟩

omit hde in
/-- The commands `is`, each presented while idle, are all answered `OK` and lead from `s` to `t`. -/
inductive Accepted : List Instr → State → State → Prop where
  | nil (s : State) : Accepted [] s s
  | cons {i : Instr} {is : List Instr} {s v t : State} {x : Word} (idle : s.busy = false)
      (ok : exec i s = .next (v.respond .ok x)) (rest : Accepted is (v.respond .ok x) t) : Accepted (i :: is) s t

theorem Session.sendAll_of_accepted {is : List Instr} {s t : State} (ha : Accepted is s t) :
    ∀ h : Session, h.state = s → ∃ g, h.sendAll S is = some g ∧ g.state = t ∧ h.Did S g is := by
  induction ha with
  | nil s => exact fun h e => ⟨h, rfl, e, .refl h⟩
  | cons idle ok _ ih =>
    rintro h rfl
    obtain ⟨g, g1, g2, g3⟩ := Session.ask_idle (S := S) hde idle ok
    obtain ⟨k, k1, k2, k3⟩ := ih g g2
    exact ⟨k, by simp [Session.sendAll, g1, k1], k2, g3.trans k3⟩

omit hde in
theorem exec_ldkey_idle {s : State} (hb : s.busy = false) (i : KeyIndex) (w : Word) :
    exec (.ldkey i w) s = .next (((s.setKeyWord i w).markKeyLoaded i).respond .ok 0#32) := whenIdle_of_idle hb _

omit hde in
/-- Key words loaded one after the other into an idle engine. -/
theorem accepted_ldkeys (l : List (KeyIndex × Word)) :
    ∀ s : State, s.busy = false → ∃ t, Accepted (l.map fun p => .ldkey p.1 p.2) s t
      ∧ t.key = l.foldl (fun key p => key.set p.1.toNat p.2 p.1.isLt) s.key
      ∧ t.kv = l.foldl (fun v p => v ||| (1#8 <<< p.1.toNat)) s.kv ∧ t.busy = false := by
  induction l with
  | nil => exact fun s hb => ⟨s, .nil s, rfl, rfl, hb⟩
  | cons p l ih =>
    intro s hb
    obtain ⟨t, t1, t2, t3, t4⟩ := ih (((s.setKeyWord p.1 p.2).markKeyLoaded p.1).respond .ok 0#32) hb
    exact ⟨t, .cons hb (exec_ldkey_idle hb _ _) t1, t2, t3, t4⟩

omit hde in
/-- `KEY256` from an idle engine leaves it idle with the whole key. -/
theorem accepted_key256 (key : KeyWords) {s : State} (hb : s.busy = false) :
    ∃ t, Accepted (key256 key) s t ∧ t.key = key ∧ t.kv = 0xFF#8 ∧ t.busy = false := by
  obtain ⟨t, t1, t2, t3, t4⟩ := accepted_ldkeys
    ([0#3, 1#3, 2#3, 3#3, 4#3, 5#3, 6#3, 7#3].map fun i => (i, keyAt key i)) s hb
  refine ⟨t, t1, ?_, ?_, t4⟩
  · rw [t2]
    refine Vector.ext fun j hj => ?_
    interval_cases j <;> simp [keyAt]
  · rw [t3]
    simp only [List.map_cons, List.map_nil, List.foldl_cons, List.foldl_nil]
    generalize s.kv = v
    revert v
    decide

omit hde in
/-- `BLK64` and `START` from an idle engine with the whole key begin an operation on the block. -/
theorem accepted_block (b : Word × Word) {s : State} (hb : s.busy = false) (hk : s.kv = 0xFF#8) :
    ∃ t, Accepted (blk64 b ++ [.start]) s t ∧ InOperation S s.key s.dir b 0 t := by
  have load : ∀ (u : State) (h : Half) (w : Word), u.busy = false →
      exec (.ldblk h w) u = .next (State.respond { u.setHalf h w with done := false } .ok 0#32) :=
    fun u h w hu => whenIdle_of_idle hu _
  have start : ∀ u : State, u.busy = false → u.kv = 0xFF#8 → exec .start u = .next (u.beginOperation.respond .ok 0#32) :=
    fun u hu ku => by
      change whenIdle u _ = _
      rw [whenIdle_of_idle hu, State.keyOk, ku]
      rfl
  exact ⟨_, .cons hb (load _ _ _ hb) <| .cons hb (load _ _ _ hb) <| .cons hb (start _ hb hk) <| .nil _,
    rfl, hk, rfl, fun _ => ⟨rfl, rfl, rfl⟩, fun h => absurd h (by decide)⟩

/-- One poll during an operation: the operation goes on, and the answer tells whether it is over. -/
theorem Session.poll_spec {b : Word × Word} {k : Nat} (n : Nat) {h : Session} (hk : k ≤ 33) (ho : InOperation S key d b k h.state) :
    ∃ g, Session.poll S n h = some (decide (k + n ≤ 32), g) ∧ InOperation S key d b (min (k + n) 33) g.state
      ∧ h.Did S g [.rdst] := by
  have ho' := ho.engineSteps hk n
  obtain ⟨g, g1, g2, -, g4⟩ := Session.send_spec (S := S) hde (n := n) (h := h) (v := engineSteps S n h.state)
    (i := .rdst) (c := .ok) (x := (engineSteps S n h.state).status) rfl
  refine ⟨g, ?_, g2 ▸ ho'.respond _ _, g4⟩
  have : (engineSteps S n h.state).busy = decide (k + n ≤ 32) := by
    rw [Bool.eq_iff_iff, ho'.busy_iff, decide_eq_true_iff]
    omega
  simp only [Session.poll, g1, Option.map_some, status_bit_zero, this]

/-- `WAIT` during an operation ends with the operation, at every pace. -/
theorem Session.waitFrom_spec {b : Word × Word} (pace : List Nat) :
    ∀ (h : Session) (k : Nat), k ≤ 33 → InOperation S key d b k h.state →
      ∃ (g : Session) (n : Nat), h.waitFrom S pace = some g ∧ InOperation S key d b 33 g.state ∧ h.Did S g (wait n) := by
  induction pace with
  | nil =>
    intro h k hk ho
    obtain ⟨g, g1, g2, g3⟩ := Session.poll_spec hde Session.lastTurns (h := { h with pace := [] }) hk ho
    rw [decide_eq_false (by simp only [Session.lastTurns]; omega)] at g1
    rw [show min (k + Session.lastTurns) 33 = 33 by simp only [Session.lastTurns]; omega] at g2
    exact ⟨g, 0, by simp only [Session.waitFrom, g1], g2, wait_zero ▸ g3.anyPace⟩
  | cons n pace ih =>
    intro h k hk ho
    obtain ⟨g, g1, g2, g3⟩ := Session.poll_spec hde n (h := { h with pace := pace }) hk ho
    by_cases hx : k + n ≤ 32
    · obtain ⟨j, m, j1, j2, j3⟩ := ih g _ (by omega) g2
      rw [decide_eq_true hx] at g1
      exact ⟨j, m + 1, by simp only [Session.waitFrom, g1, j1], j2, wait_succ m ▸ g3.anyPace.trans j3⟩
    · rw [decide_eq_false hx] at g1
      rw [show min (k + n) 33 = 33 by omega] at g2
      exact ⟨g, 0, by simp only [Session.waitFrom, g1], g2, wait_zero ▸ g3.anyPace⟩

/-- `RDBLK64` from an idle engine yields its block. -/
theorem Session.readBlock_spec {h : Session} (hb : h.state.busy = false) :
    ∃ g, h.readBlock S = some ((h.state.l, h.state.r), g) ∧ h.Did S g rdblk64
      ∧ ∃ x y, g.state = (h.state.respond .ok x).respond .ok y := by
  have read : ∀ (u : State) (p : Half), u.busy = false → exec (.rdblk p) u = .next (u.respond .ok (u.half p)) :=
    fun u p hu => whenIdle_of_idle hu _
  obtain ⟨g, g1, g2, g3⟩ := Session.ask_idle (S := S) hde hb (read _ .left hb)
  have gb : g.state.busy = false := by rw [g2]; exact hb
  obtain ⟨k, k1, k2, k3⟩ := Session.ask_idle (S := S) hde gb (read _ .right gb)
  refine ⟨k, ?_, g3.trans k3, _, _, by rw [k2, g2]⟩
  simp [Session.readBlock, g1, k1, blockOfResponses, g2, State.half]

/-- One block from an idle engine with the whole key, at every pace: the block function's output, and the engine ready for the next. -/
theorem Session.block_spec {h : Session} (b : Word × Word) (hb : h.state.busy = false) (hk : h.state.kv = 0xFF#8) :
    ∃ g n, h.block S b = some (crypt S h.state.key h.state.dir b, g) ∧ h.Did S g (blockCommands n b)
      ∧ g.state.busy = false ∧ g.state.kv = 0xFF#8 ∧ g.state.key = h.state.key ∧ g.state.dir = h.state.dir := by
  obtain ⟨t, ha, ho⟩ := accepted_block (S := S) b hb hk
  obtain ⟨g, g1, rfl, g3⟩ := Session.sendAll_of_accepted (S := S) hde ha h rfl
  obtain ⟨k, n, k1, k2, k3⟩ := Session.waitFrom_spec hde g.pace g 0 (by decide) ho
  obtain ⟨kb, klr⟩ := k2.finished (by decide)
  obtain ⟨j, j1, j2, x, y, j3⟩ := Session.readBlock_spec (S := S) hde kb
  refine ⟨j, n, ?_, (g3.trans k3).trans j2, ?_⟩
  · simp only [Session.block, g1, Session.waitIdle, k1, j1, klr]
  · rw [j3]
    exact ⟨kb, k2.kv_eq, k2.key_eq, k2.dir_eq⟩

/-- The loop over the chunks, at every pace. -/
theorem Session.blocks_spec (bs : List (Word × Word)) :
    ∀ h : Session, h.state.busy = false → h.state.kv = 0xFF#8 →
      ∃ (g : Session) (ns : List Nat), h.blocks S bs = some (bs.map (crypt S h.state.key h.state.dir), g) ∧ ns.length = bs.length
        ∧ h.Did S g ((ns.zip bs).flatMap fun b => blockCommands b.1 b.2) ∧ g.state.busy = false := by
  induction bs with
  | nil => exact fun h hb _ => ⟨h, [], rfl, rfl, .refl h, hb⟩
  | cons b bs ih =>
    intro h hb hk
    obtain ⟨g, n, g1, g2, gb, gk, gkey, gdir⟩ := Session.block_spec (S := S) hde b hb hk
    obtain ⟨k, ns, k1, k2, k3, kb⟩ := ih g gb gk
    refine ⟨k, n :: ns, ?_, by simp [k2], g2.trans k3, kb⟩
    simp [Session.blocks, g1, k1, gkey, gdir]

/-- A message from an idle engine, at every pace: the outputs are the block function's, the commands presented are those of R145
with some number of polls for each block, and the engine is idle again. -/
theorem Session.message_spec (key : KeyWords) (d : Direction) (bs : List (Word × Word)) {h : Session}
    (hb : h.state.busy = false) :
    ∃ (g : Session) (ns : List Nat), h.message S key d bs = some (bs.map (crypt S key d), g) ∧ ns.length = bs.length
      ∧ h.Did S g (messageCommands key d (ns.zip bs)) ∧ g.state.busy = false := by
  obtain ⟨t, ha, tk, tv, tb⟩ := accepted_key256 key hb
  obtain ⟨g, g1, rfl, g3⟩ := Session.sendAll_of_accepted (S := S) hde ha h rfl
  have hd : Accepted [.setdir d] g.state (State.respond { g.state with dir := d } .ok 0#32) :=
    .cons tb (whenIdle_of_idle tb _) (.nil _)
  obtain ⟨k, k1, k2, k3⟩ := Session.sendAll_of_accepted (S := S) hde hd g rfl
  have kb : k.state.busy = false := by rw [k2]; exact tb
  have kv : k.state.kv = 0xFF#8 := by rw [k2]; exact tv
  obtain ⟨j, ns, j1, j2, j3, jb⟩ := Session.blocks_spec (S := S) hde bs k kb kv
  refine ⟨j, ns, ?_, j2, (g3.trans k3).trans j3, jb⟩
  have kkey : k.state.key = key := by rw [k2]; exact tk
  have kdir : k.state.dir = d := by rw [k2]; rfl
  simp only [Session.message, g1, Session.messageBody, k1, j1, kkey, kdir]

/-- The digits that the host reads from an idle engine are those of the block function in closed form. -/
theorem Session.messageDigits_eq_outputDigits (key : KeyWords) (d : Direction) (bs : List (Word × Word)) {h : Session}
    (hb : h.state.busy = false) :
    ∃ g, h.messageDigits S key d bs = some (outputDigits S key d bs, g) ∧ g.state.busy = false := by
  obtain ⟨g, ns, g1, -, -, gb⟩ := Session.message_spec (S := S) hde key d bs hb
  refine ⟨g, ?_, gb⟩
  simp [Session.messageDigits, g1, outputDigits, List.flatMap_map]

end Sys2Proof.Message
end

