-- ==== Sys2Proof/Machine/Assembler.lean ====
section
/-! DEFINITION. The assembler notation for host programs (30_encoding R60) and its pseudo-commands (R61): a line of text becomes the
moves it stands for. It is the host's notation (D23): no step of the machine calls it. -/

namespace Sys2Proof.Assembler

open Sys2Proof.Machine Sys2Proof.Message

/-- A token that has been read so far, if it is not empty. -/
def flush (cur : List Char) : List (List Char) := if cur = [] then [] else [cur.reverse]

/-- The tokens of a line: blanks separate, a comma is a token of its own, `;` begins a comment (R60). -/
def tokens : List Char → List Char → List (List Char)
  | [], cur => flush cur
  | c :: cs, cur =>
    if c = ';' then flush cur
    else if c = ' ' ∨ c = '\t' then flush cur ++ tokens cs []
    else if c = ',' then flush cur ++ [','] :: tokens cs []
    else tokens cs (c :: cur)

/-- The tokens before `->`, after which a line shows the response (R60). -/
def beforeResponse (ts : List (List Char)) : List (List Char) := ts.takeWhile fun t => t ≠ ['-', '>']

/-- The value of a decimal digit. -/
def decimalValue (c : Char) : Option Nat :=
  if 48 ≤ c.toNat ∧ c.toNat ≤ 57 then some (c.toNat - 48) else none

/-- A decimal number, read on from `acc`. -/
def decimalFrom (acc : Nat) : List Char → Option Nat
  | [] => some acc
  | c :: cs =>
    match decimalValue c with
    | some d => decimalFrom (10 * acc + d) cs
    | none => none

/-- `<word>` (R60): `0x` and one to eight hexadecimal digits, or a decimal number of 32 bits. -/
def wordLiteral (t : List Char) : Option Word :=
  match t with
  | '0' :: 'x' :: ds =>
    if 1 ≤ ds.length ∧ ds.length ≤ 8 then (parseHex ds).map wordOfDigits else none
  | [] => none
  | cs =>
    match decimalFrom 0 cs with
    | some n => if n < 2 ^ 32 then some (BitVec.ofNat 32 n) else none
    | none => none

/-- `<i>` (R60): one digit, 0 to 7. -/
def indexLiteral (t : List Char) : Option KeyIndex :=
  match t with
  | [c] =>
    match decimalValue c with
    | some n => if n < 8 then some (BitVec.ofNat 3 n) else none
    | none => none
  | _ => none

/-- The operand of `SETDIR` (R60): `ENC` or 0, `DEC` or 1. -/
def directionLiteral (t : List Char) : Option Direction :=
  if t = ['E', 'N', 'C'] ∨ t = ['0'] then some .encrypt
  else if t = ['D', 'E', 'C'] ∨ t = ['1'] then some .decrypt
  else none

/-- The first operand of `LDBLK` and `RDBLK` (R60): `L` or `R`. -/
def halfLiteral (t : List Char) : Option Half :=
  if t = ['L'] then some .left else if t = ['R'] then some .right else none

/-- A raw command word `0x<hh>_<hhhhhhhh>` (R60). -/
def rawLiteral (t : List Char) : Option CommandWord :=
  match t with
  | '0' :: 'x' :: h :: k :: '_' :: ds =>
    if ds.length = 8 then
      match parseHex [h, k], parseHex ds with
      | some [x, y], some zs => some ((x ++ y : BitVec 8) ++ wordOfDigits zs)
      | _, _ => none
    else none
  | _ => none

/-- A string of exactly `n` hexadecimal digits. -/
def digitsLiteral (n : Nat) (t : List Char) : Option (List Nibble) :=
  if t.length = n then parseHex t else none

/-- A mnemonic with no operand: `NOP`, `START`, `RDST`, `<reset>`, `WAIT`, `RDBLK64` (R60, R61). -/
def plainLine (waits : Nat) (m : List Char) : Option (List Move) :=
  if m = ['N', 'O', 'P'] then some (asMoves [.nop])
  else if m = ['S', 'T', 'A', 'R', 'T'] then some (asMoves [.start])
  else if m = ['R', 'D', 'S', 'T'] then some (asMoves [.rdst])
  else if m = ['<', 'r', 'e', 's', 'e', 't', '>'] then some [.reset none]
  else if m = ['W', 'A', 'I', 'T'] then some (asMoves (wait waits))
  else if m = ['R', 'D', 'B', 'L', 'K', '6', '4'] then some (asMoves rdblk64)
  else none

/-- A mnemonic with one operand: `SETDIR`, `RDBLK`, `.word`, `KEY256`, `BLK64`, `ENCRYPT64`, `DECRYPT64` (R60, R61). -/
def oneOperandLine (waits : Nat) (m t : List Char) : Option (List Move) :=
  if m = ['S', 'E', 'T', 'D', 'I', 'R'] then (directionLiteral t).map fun d => asMoves [.setdir d]
  else if m = ['R', 'D', 'B', 'L', 'K'] then (halfLiteral t).map fun h => asMoves [.rdblk h]
  else if m = ['.', 'w', 'o', 'r', 'd'] then (rawLiteral t).map fun cw => [.command cw]
  else if m = ['K', 'E', 'Y', '2', '5', '6'] then
    (digitsLiteral 64 t).map fun ds => asMoves (key256 (keyOfDigits ds))
  else if m = ['B', 'L', 'K', '6', '4'] then
    (digitsLiteral 16 t).map fun ds => asMoves (blk64 (blockOfChunk ds))
  else if m = ['E', 'N', 'C', 'R', 'Y', 'P', 'T', '6', '4'] then
    (digitsLiteral 16 t).map fun ds => asMoves (encrypt64 waits (blockOfChunk ds))
  else if m = ['D', 'E', 'C', 'R', 'Y', 'P', 'T', '6', '4'] then
    (digitsLiteral 16 t).map fun ds => asMoves (decrypt64 waits (blockOfChunk ds))
  else none

/-- A mnemonic with two operands: `LDKEY <i>, <word>` and `LDBLK L | R, <word>` (R60). -/
def twoOperandLine (m t u : List Char) : Option (List Move) :=
  if m = ['L', 'D', 'K', 'E', 'Y'] then
    match indexLiteral t, wordLiteral u with
    | some i, some w => some (asMoves [.ldkey i w])
    | _, _ => none
  else if m = ['L', 'D', 'B', 'L', 'K'] then
    match halfLiteral t, wordLiteral u with
    | some h, some w => some (asMoves [.ldblk h w])
    | _, _ => none
  else none

/-- The moves of one line (R60, R61), `waits` being how many answers `BUSY = 1` a `WAIT` gets; `none` for a line that is not of
the notation. An empty line or a comment stands for no move. -/
def assembleLine (waits : Nat) (line : List Char) : Option (List Move) :=
  match beforeResponse (tokens line []) with
  | [] => some []
  | [m] => plainLine waits m
  | [m, t] => oneOperandLine waits m t
  | [m, t, [','], u] => twoOperandLine m t u
  | _ => none

end Sys2Proof.Assembler
end

