-- ==== Sys2Proof/Tests/Slice0.lean ====
section
/-! SUPPORT. The model's own tests. Every expected value is the spec's: 95_test_vectors, 96_test_traces, or an example of the rule named. -/

namespace Sys2Proof.Tests

open Sys2Proof.Machine Sys2Proof.Message Sys2Proof.Assembler

/-! ### Small states and tables -/

/-- The spec's test table `T1` (95_test_vectors 2): `SBOX[t][v] = (v + t + 1) mod 16`. -/
def tableT1 : SBoxBank := fun t => Equiv.addRight (BitVec.ofNat 4 (t.val + 1))

/-- The spec's identity table `ID`. -/
def tableID : SBoxBank := fun _ => Equiv.refl _

/-- The spec's test key `KA`. -/
def keyKA : KeyWords :=
  #v[0x00112233#32, 0x44556677#32, 0x8899AABB#32, 0xCCDDEEFF#32, 0x01234567#32, 0x89ABCDEF#32, 0xFEDCBA98#32, 0x76543210#32]

/-- Idle, with `KA` loaded. -/
def keyed : State := { State.reset with key := keyKA, kv := 0xFF#8 }

/-- Busy, `n` rounds done, on the block `(x, y)`. -/
def running (n : BitVec 6) (x y : Word) : State := { keyed with busy := true, rnd := n, l := x, r := y }

/-- Idle, with a result in `(L, R)`. -/
def finished : State := { keyed with done := true, rnd := 32#6, l := 0xD589AC25#32, r := 0xC463906A#32 }

/-- `s` with the moves `ms` scheduled. -/
def withMoves (s : State) (ms : List Move) : State := { s with schedule := ms }

/-- The next state, where there is one. -/
def nextOf : Result → Option State
  | .next t => some t
  | _ => none

/-- The last response of the next state. -/
def answerOf (o : Result) : Option Response := (nextOf o).bind fun t => t.responses.getLast?

/-! ### Ill-formed words, one for each check of 30_encoding R58 (95_test_vectors 4.5) -/

theorem test_wf_reservedBit : wellFormedWord 0x0800000000#40 = false := by decide
theorem test_wf_reservedOpcode : wellFormedWord 0x7000000000#40 = false := by decide
theorem test_wf_indexNotZero : wellFormedWord 0x4100000000#40 = false := by decide
theorem test_wf_setdirIndex : wellFormedWord 0x2200000000#40 = false := by decide
theorem test_wf_ldblkIndex : wellFormedWord 0x37FFFFFFFF#40 = false := by decide
theorem test_wf_rdblkIndex : wellFormedWord 0x5200000000#40 = false := by decide
theorem test_wf_dataNotZero : wellFormedWord 0x5000000001#40 = false := by decide
theorem test_wf_legal : wellFormedWord 0x17FFFFFFFF#40 = true := by decide

/-! ### Decoding, by words written out from R51 to R53 (95_test_vectors 4.5) -/

theorem test_decode_nop : decode 0b0000000000000000000000000000000000000000#40 = .ok .nop := by rfl
theorem test_decode_ldkey : decode 0b0001011111111111111111111111111111111111#40 = .ok (.ldkey 7#3 0xFFFFFFFF#32) := by rfl
theorem test_decode_setdir : decode 0b0010000100000000000000000000000000000000#40 = .ok (.setdir .decrypt) := by rfl
theorem test_decode_ldblk : decode 0b0011000001110100011001010111001101110100#40 = .ok (.ldblk .left 0x74657374#32) := by rfl
theorem test_decode_start : decode 0b0100000000000000000000000000000000000000#40 = .ok .start := by rfl
theorem test_decode_rdblk : decode 0b0101000100000000000000000000000000000000#40 = .ok (.rdblk .right) := by rfl
theorem test_decode_rdst : decode 0b0110000000000000000000000000000000000000#40 = .ok .rdst := by rfl
theorem test_decode_ldkeyZ : decode 0x1800112233#40 = .error .reservedBitSet := by rfl
theorem test_decode_reserved : decode 0xF000000000#40 = .error .reservedOpcode := by rfl
theorem test_decode_nopIndex : decode 0x0100000000#40 = .error .indexNotZero := by rfl
theorem test_decode_startData : decode 0x4000000001#40 = .error .dataNotZero := by rfl
theorem test_decode_ldblkIndex : decode 0x3200000000#40 = .error .indexOutOfRange := by rfl
theorem test_encode_ldkey : encode (.ldkey 7#3 0x76543210#32) = 0x1776543210#40 := by decide
theorem test_encode_ldblk : encode (.ldblk .right 0x61616161#32) = 0x3161616161#40 := by decide
theorem test_tableWord : decodeTableWord 40 0x1000000000 = some (.ldkey 0#3 0#32) := by rfl
theorem test_responseWord : Response.word ⟨.errNoKey, 0#32⟩ = 0x300000000#34 := by decide

/-! ### One command, one step (95_test_vectors 4.6) -/

theorem test_nop_busy : answerOf (exec .nop (running 7#6 1#32 2#32)) = some ⟨.ok, 0#32⟩ := by decide
theorem test_ldkey : (nextOf (exec (.ldkey 3#3 0xCCDDEEFF#32) State.reset)).map (fun t => (t.keyWord 3#3, t.keyWord 2#3, t.kv))
    = some (0xCCDDEEFF#32, 0#32, 0x08#8) := by decide
theorem test_ldkey_keepsDone : (nextOf (exec (.ldkey 0#3 0x5#32) finished)).map (fun t => (t.keyWord 0#3, t.done))
    = some (0x5#32, true) := by decide
theorem test_setdir : (nextOf (exec (.setdir .decrypt) finished)).map (fun t => (t.dir, t.done)) = some (.decrypt, true) := by decide
theorem test_setdir_busy : answerOf (exec (.setdir .decrypt) (running 7#6 1#32 2#32)) = some ⟨.errBusy, 0#32⟩ := by decide
theorem test_ldblk : (nextOf (exec (.ldblk .right 0x1#32) finished)).map (fun t => (t.l, t.r, t.done))
    = some (0xD589AC25#32, 0x1#32, false) := by decide
theorem test_start : (nextOf (exec .start finished)).map (fun t => (t.busy, t.done, t.rnd, t.status))
    = some (true, false, 0#6, 0x0000FF09#32) := by decide
theorem test_start_noKey : answerOf (exec .start { keyed with kv := 0x7F#8 }) = some ⟨.errNoKey, 0#32⟩ := by decide
theorem test_rdblk : answerOf (exec (.rdblk .right) finished) = some ⟨.ok, 0xC463906A#32⟩ := by decide
theorem test_rdblk_finishing : answerOf (exec (.rdblk .left) (running 32#6 1#32 2#32)) = some ⟨.errBusy, 0#32⟩ := by decide
theorem test_rdst : answerOf (exec .rdst { keyed with busy := true, dir := .decrypt, rnd := 31#6 }) = some ⟨.ok, 0x001FFF0D#32⟩ := by decide
theorem test_rdst_done : answerOf (exec .rdst finished) = some ⟨.ok, 0x0020FF0A#32⟩ := by decide

/-! ### Steps (95_test_vectors 4.6) -/

theorem test_step_illegalOutranksBusy :
    answerOf (step (withMoves (running 7#6 1#32 2#32) [.command 0x7000000000#40])) = some ⟨.errIllegal, 0#32⟩ := by decide
theorem test_step_resetWithWord :
    nextOf (step (withMoves (running 12#6 1#32 2#32) [.reset (some 0x0000000000#40)])) = some State.reset := by decide
theorem test_step_fetchWord :
    (nextOf (step (State.reset.withFetchWord 40 0x1000000000))).map (fun t => (t.kv, t.schedule)) = some (0x01#8, []) := by decide
theorem test_step_final :
    (nextOf (step (running 32#6 0xC463906A#32 0xD589AC25#32))).map (fun t => (t.l, t.r, t.busy, t.done, t.rnd))
      = some (0xD589AC25#32, 0xC463906A#32, false, true, 32#6) := by rfl
theorem test_engine_round0 :
    ((running 0#6 0x74657374#32 0x61616161#32).engineStep tableT1).l = 0x36399D54#32 := by decide
theorem test_engine_round23 :
    ((running 23#6 0x92A8C957#32 0x5261C036#32).engineStep tableT1).l = 0x506F38E7#32 := by decide
theorem test_engine_round31 :
    ((running 31#6 0xD589AC25#32 0xB4C59754#32).engineStep tableT1).rnd = 32#6 := by decide

/-! ### The datapath (95_test_vectors 4.1 to 4.3, 96_test_traces) -/

theorem test_ksel_turn : (ksel .encrypt 23#5, ksel .encrypt 24#5, ksel .decrypt 8#5, ksel .decrypt 31#5) = (7#3, 7#3, 7#3, 0#3) := by decide
theorem test_ksel_inside : (ksel .encrypt 10#5, ksel .decrypt 10#5, ksel .encrypt 26#5) = (2#3, 5#3, 5#3) := by decide
/-- The hardware form of R76: a conditional inverter. -/
theorem test_ksel_hardwareForm : ∀ (i : RoundIndex),
    ksel .encrypt i = (if i.extractLsb' 3 2 = 3#2 then ~~~ i.extractLsb' 0 3 else i.extractLsb' 0 3)
      ∧ ksel .decrypt i = (if i.extractLsb' 3 2 ≠ 0#2 then ~~~ i.extractLsb' 0 3 else i.extractLsb' 0 3) := by decide
theorem test_rk : rk keyKA .decrypt 9#5 = 0xFEDCBA98#32 := by decide
theorem test_subst_order : substWord tableT1 0x01234567#32 = 0x13579BDF#32 := by decide
theorem test_subst_trace : substWord tableT1 0x747695A7#32 = 0x86AAEB1F#32 := by decide
theorem test_add_wraps : add32 0xFFFFFFFF#32 0x00000001#32 = 0x00000000#32 := by decide
theorem test_rol11_left : rol11 0x12345678#32 = 0xA2B3C091#32 := by decide
theorem test_rol11_wraps : rol11 0x00200000#32 = 0x00000001#32 := by decide
theorem test_rol32_31 : rol32 0x80000001#32 31 = 0xC0000000#32 := by decide
theorem test_round : feistelRound tableT1 0x74657374#32 0x61616161#32 0x00112233#32 = (0x36399D54#32, 0x74657374#32) := by decide
theorem test_round_exchange :
    feistelRound tableID 0xAAAAAAAA#32 0xAAAAAAAA#32 0x55555556#32 = (0xAAAAAAAA#32, 0xAAAAAAAA#32) := by decide

/-! ### The host's contract and the assembler (45_host_message_processor, 30_encoding R60, R61) -/

theorem test_pad : pad [0x74#8, 0x65#8, 0x73#8, 0x74#8] = [0x74#8, 0x65#8, 0x73#8, 0x74#8, 0x61#8, 0x61#8, 0x61#8, 0x61#8] := by decide
theorem test_block : blocksOfDigits (toHex [0x74#8, 0x65#8, 0x73#8, 0x74#8, 0x61#8, 0x61#8, 0x61#8, 0x61#8])
    = [(0x74657374#32, 0x61616161#32)] := by decide
theorem test_parseKey_order : parseKey (hexText .lower ((List.finRange 8).flatMap fun i => digitsOfWord keyKA[i.val])) = .ok keyKA := by decide
theorem test_parseKey_63 : parseKey (List.replicate 63 'a') = .error .keyFormat := by decide
theorem test_asm_ldkey :
    assembleLine 0 ['L', 'D', 'K', 'E', 'Y', ' ', '7', ',', ' ', '0', 'x', '7', '6', '5', '4', '3', '2', '1', '0', ' ', ';', 'k']
      = some [.command 0x1776543210#40] := by decide
theorem test_asm_raw :
    assembleLine 0 ['.', 'w', 'o', 'r', 'd', ' ', '0', 'x', '2', '2', '_', '0', '0', '0', '0', '0', '0', '0', '0']
      = some [.command 0x2200000000#40] := by decide
theorem test_asm_reset : assembleLine 0 ['<', 'r', 'e', 's', 'e', 't', '>'] = some [.reset none] := by decide

/-- R61 `WAIT`: a poll answered `BUSY = 1`, the engine's turn, a poll answered `BUSY = 0`; and then `RDBLK64` (R145). -/
theorem test_host_waitAndRead :
    ((((Session.start (running 32#6 0xC463906A#32 0xD589AC25#32) [0, 1]).waitIdle tableT1).bind (Session.readBlock tableT1)).map
        fun r => (r.1, r.2.moves))
      = some ((0xD589AC25#32, 0xC463906A#32), [.command 0x6000000000#40, .engine, .command 0x6000000000#40,
          .command 0x5000000000#40, .command 0x5100000000#40]) := by decide
/-- The model's choice, log entry 13: a rejected read yields no block. -/
theorem test_host_rejectedRead : (Session.start (running 7#6 1#32 2#32) []).readBlock tableT1 = none := by decide
/-- The model's choice, log entry 10: a malformed key is reported before a misaligned input. -/
theorem test_host_errorOrder (p : HostParams) (h : Session) :
    decryptMessage p tableT1 ['0'] [5#4] h = .error .keyFormat := by rfl

/-! ### Witnesses: for each statement with hypotheses, a state and operands that meet all of them, for each of its clauses -/

/-- Busy, with the word scheduled. -/
def busyWith (cw : CommandWord) : State := withMoves (running 7#6 1#32 2#32) [.command cw]

/-- Idle with a key, with the word scheduled. -/
def idleWith (cw : CommandWord) : State := withMoves keyed [.command cw]

theorem witness_EncodeOfDecode : decode 0x17FFFFFFFF#40 = .ok (.ldkey 7#3 0xFFFFFFFF#32) := by rfl
theorem witness_OpcodeMapAgreesWithDecode :
    (⟨"LDKEY", 0x1000000000#40, 0xF800000000#40⟩ : OpcodeRow) ∈ opcodeRows
      ∧ OpcodeRow.admits ⟨"LDKEY", 0x1000000000#40, 0xF800000000#40⟩ 0x17FFFFFFFF#40 = true := by decide
theorem witness_StepRunsTheDecodedCommand :
    (busyWith 0x6000000000#40).commandNext 0x6000000000#40 ∧ decode 0x6000000000#40 = .ok .rdst := ⟨rfl, rfl⟩
theorem witness_StepRejectsAnIllegalWord :
    (busyWith 0x7000000000#40).commandNext 0x7000000000#40 ∧ decode 0x7000000000#40 = .error .reservedOpcode := ⟨rfl, rfl⟩
theorem witness_EngineStepEffect_round :
    (running 31#6 1#32 2#32).engineNext ∧ (running 31#6 1#32 2#32).busy = true ∧ (running 31#6 1#32 2#32).rnd < 32#6 := by decide
theorem witness_EngineStepEffect_final :
    (running 32#6 1#32 2#32).engineNext ∧ (running 32#6 1#32 2#32).busy = true ∧ (running 32#6 1#32 2#32).rnd = 32#6 := by decide
theorem witness_EngineStepEffect_none :
    (finished.engineNext ∧ finished.busy = false)
      ∧ ((running 33#6 1#32 2#32).engineNext ∧ 32#6 < (running 33#6 1#32 2#32).rnd) := by decide
theorem witness_ResetAtAnyTime : (withMoves (running 12#6 1#32 2#32) [.reset (some 0x4000000000#40)]).resetNext := ⟨_, rfl⟩
theorem witness_LdkeyLoadsOneKeyWord : finished.busy = false := by decide
theorem witness_SetdirSetsTheDirection : finished.busy = false := by decide
theorem witness_LdblkLoadsOneHalf : finished.busy = false := by decide
theorem witness_RdblkAnswersOneHalf : finished.busy = false := by decide
theorem witness_StartBeginsAnOperation : finished.busy = false ∧ finished.kv = 0xFF#8 := by decide
theorem witness_StartWithoutKeyIsRejected :
    ({ keyed with kv := 0x7F#8 } : State).busy = false ∧ ({ keyed with kv := 0x7F#8 } : State).kv ≠ 0xFF#8 := by decide
theorem witness_BusyRejectsTheOtherFive :
    (running 32#6 1#32 2#32).busy = true ∧ ∀ i : KeyIndex, Instr.ldkey i 0#32 ≠ .nop ∧ Instr.ldkey i 0#32 ≠ .rdst := by decide
theorem witness_CommandFrames : ∃ t, exec (.ldkey 7#3 1#32) keyed = .next t := ⟨_, rfl⟩
theorem witness_RejectionsAndTheirPriority : (idleWith 0x4000000000#40).commandNext 0x4000000000#40 := rfl
theorem witness_RejectionHasNoEffect :
    ∃ t x, (busyWith 0x4000000000#40).commandNext 0x4000000000#40 ∧ step (busyWith 0x4000000000#40) = .next t
      ∧ t.responses = (busyWith 0x4000000000#40).responses ++ [x] ∧ x.code ≠ .ok :=
  ⟨_, ⟨.errBusy, 0#32⟩, rfl, rfl, rfl, by decide⟩
theorem witness_OneResponsePerCommand_command :
    ∃ t, step (idleWith 0x5000000000#40) = .next t ∧ (idleWith 0x5000000000#40).commandNext 0x5000000000#40 := ⟨_, rfl, rfl⟩
theorem witness_OneResponsePerCommand_engine : ∃ t, step finished = .next t ∧ finished.engineNext := ⟨_, rfl, .inl rfl⟩
theorem witness_OneResponsePerCommand_reset :
    ∃ t, step (withMoves finished [.reset none]) = .next t ∧ (withMoves finished [.reset none]).resetNext := ⟨_, rfl, _, rfl⟩
theorem witness_CommandsChangeNothingWhileBusy :
    ∃ t, (busyWith 0x10DEADBEEF#40).busy = true ∧ (busyWith 0x10DEADBEEF#40).commandNext 0x10DEADBEEF#40
      ∧ step (busyWith 0x10DEADBEEF#40) = .next t := ⟨_, rfl, rfl, rfl⟩
theorem witness_KeyAndDirectionFrozenWhileBusy :
    ∃ t, (running 31#6 1#32 2#32).busy = true ∧ ¬ (running 31#6 1#32 2#32).resetNext ∧ step (running 31#6 1#32 2#32) = .next t :=
  ⟨_, rfl, fun ⟨_, h⟩ => by simp [running, keyed, State.reset] at h, rfl⟩
theorem witness_NoCommandRevealsTheKey :
    ∃ t u, (idleWith 0x6000000000#40).commandNext 0x6000000000#40 ∧ step (idleWith 0x6000000000#40) = .next t
      ∧ step { idleWith 0x6000000000#40 with key := Vector.replicate 8 0xFFFFFFFF#32 } = .next u := ⟨_, _, rfl, rfl, rfl⟩
theorem witness_RunningBlockIsHidden :
    ∃ t u, (busyWith 0x5100000000#40).busy = true ∧ (busyWith 0x5100000000#40).commandNext 0x5100000000#40
      ∧ step (busyWith 0x5100000000#40) = .next t
      ∧ step { busyWith 0x5100000000#40 with l := 5#32, r := 6#32 } = .next u := ⟨_, _, rfl, rfl, rfl, rfl⟩
theorem witness_ReadsHaveNoSideEffect :
    (∃ t, exec .rdst finished = .next t) ∧ ∃ t, exec (.rdblk .right) finished = .next t := ⟨⟨_, rfl⟩, ⟨_, rfl⟩⟩
theorem witness_WritesAreIdempotent :
    (∃ t, exec (.ldkey 7#3 5#32) keyed = .next t) ∧ (∃ t, exec (.setdir .decrypt) keyed = .next t)
      ∧ ∃ t, exec (.ldblk .right 5#32) finished = .next t := ⟨⟨_, rfl⟩, ⟨_, rfl⟩, ⟨_, rfl⟩⟩
theorem witness_EveryStepKeepsTheInvariants :
    (running 31#6 1#32 2#32).Inv ∧ ∃ t, step (running 31#6 1#32 2#32) = .next t := ⟨by decide, _, rfl⟩
theorem witness_ReachableStatesMeetTheInvariants :
    ∃ t, runSteps 2 { State.reset with schedule := [.command 0x1000000005#40, .reset none] } = .next t := ⟨_, rfl⟩
theorem witness_WritersOfTheRoundCounter_reset :
    ∃ t, step (withMoves finished [.reset none]) = .next t ∧ t.rnd ≠ (withMoves finished [.reset none]).rnd := ⟨_, rfl, by decide⟩
theorem witness_WritersOfTheRoundCounter_start :
    ∃ t, step (withMoves finished [.command 0x4000000000#40]) = .next t
      ∧ t.rnd ≠ (withMoves finished [.command 0x4000000000#40]).rnd := ⟨_, rfl, by decide⟩
theorem witness_WritersOfTheRoundCounter_round :
    ∃ t, step (running 31#6 1#32 2#32) = .next t ∧ t.rnd ≠ (running 31#6 1#32 2#32).rnd :=
  ⟨{ (running 31#6 1#32 2#32).engineStep Config.sbox with schedule := [] }, rfl, by
    rw [show ({ (running 31#6 1#32 2#32).engineStep Config.sbox with schedule := [] } : State).rnd = 32#6 from rfl]
    decide⟩
theorem witness_WritersOfTheKeyFlags_set :
    ∃ t, step (withMoves State.reset [.command 0x1700000000#40]) = .next t
      ∧ State.reset.kv.getLsbD 7 = false ∧ t.kv.getLsbD 7 = true := ⟨_, rfl, by decide, by decide⟩
theorem witness_WritersOfTheKeyFlags_cleared :
    ∃ t, step (withMoves keyed [.reset none]) = .next t ∧ keyed.kv.getLsbD 7 = true ∧ t.kv.getLsbD 7 = false :=
  ⟨_, rfl, by decide, by decide⟩
theorem witness_WritersOfDone_set :
    ∃ t, step (running 32#6 1#32 2#32) = .next t ∧ (running 32#6 1#32 2#32).done = false ∧ t.done = true := ⟨_, rfl, rfl, rfl⟩
theorem witness_WritersOfDone_cleared :
    ∃ t, step (withMoves finished [.command 0x3100000005#40]) = .next t ∧ finished.done = true ∧ t.done = false := ⟨_, rfl, rfl, rfl⟩
theorem witness_DoneKeepsTheResult :
    ∃ t, (withMoves finished [.command 0x2100000000#40]).Inv ∧ (withMoves finished [.command 0x2100000000#40]).done = true
      ∧ step (withMoves finished [.command 0x2100000000#40]) = .next t ∧ t.done = true := ⟨_, by decide, rfl, rfl, rfl⟩
theorem witness_PhaseTransitions_idle :
    ∃ t, (idleWith 0x4000000000#40).Inv ∧ step (idleWith 0x4000000000#40) = .next t ∧ (idleWith 0x4000000000#40).phase = .idle :=
  ⟨_, by decide, rfl, by decide⟩
theorem witness_PhaseTransitions_running :
    ∃ t, (running 31#6 1#32 2#32).Inv ∧ step (running 31#6 1#32 2#32) = .next t ∧ (running 31#6 1#32 2#32).phase = .running :=
  ⟨_, by decide, rfl, by decide⟩
theorem witness_PhaseTransitions_finishing :
    ∃ t, (running 32#6 1#32 2#32).Inv ∧ step (running 32#6 1#32 2#32) = .next t ∧ (running 32#6 1#32 2#32).phase = .finishing :=
  ⟨_, by decide, rfl, by decide⟩
theorem witness_MirrorLaw : 0 < 32 ∧ 31 < 32 := by decide
theorem witness_SubstOfTheIdentityTable : ∀ j v, tableID j v = v := fun _ _ => rfl
theorem witness_AdderAndRotator : 31 < 32 := by decide
theorem witness_KeyedFunctionIsABijection : 31 < 32 := by decide
theorem witness_RoundIsInvertible :
    ∃ swap mix : Word × Word → Word × Word, (∀ a b, swap (a, b) = (b, a)) ∧ ∀ a b, mix (a, b) = (a, b ^^^ keyedG tableT1 a 5#32) :=
  ⟨fun p => (p.2, p.1), fun p => (p.1, p.2 ^^^ keyedG tableT1 p.1 5#32), fun _ _ => rfl, fun _ _ => rfl⟩
theorem witness_PalindromicKeys :
    (∀ j : KeyIndex, keyAt #v[1#32, 2#32, 3#32, 4#32, 4#32, 3#32, 2#32, 1#32] j
      = keyAt #v[1#32, 2#32, 3#32, 4#32, 4#32, 3#32, 2#32, 1#32] (7#3 - j))
      ∧ (∀ j, keyAt (Vector.replicate 8 0x00000000#32) j = 0x00000000#32)
      ∧ ∀ j, keyAt (Vector.replicate 8 0xFFFFFFFF#32) j = 0xFFFFFFFF#32 := by decide

/-- An operation with a command word in the middle: one engine step, an `LDKEY`, 31 engine steps. -/
def interleaved : List Move := .engine :: .command 0x10DEADBEEF#40 :: List.replicate 31 .engine

theorem witness_OperationComputesCrypt :
    ∃ s : State, s.busy = false ∧ s.kv = 0xFF#8 ∧ (∀ p, Move.reset p ∉ interleaved) ∧ interleaved.count .engine = 32
      ∧ s.schedule = .command (encode .start) :: (interleaved ++ .engine :: []) ∧ 33 ≤ interleaved.length :=
  ⟨withMoves keyed (.command (encode .start) :: (interleaved ++ .engine :: [])), rfl, rfl,
    fun p => by simp [interleaved], by decide, rfl, by decide⟩
theorem witness_ChainedDecryptRestoresTheBlock :
    ∃ s : State, s.busy = false ∧ s.kv = 0xFF#8 ∧ s.dir = .encrypt
      ∧ s.schedule = .command (encode .start) :: (List.replicate 33 .engine
        ++ [.command (encode (.setdir .decrypt)), .command (encode .start)] ++ List.replicate 33 .engine) :=
  ⟨withMoves keyed (.command (encode .start) :: (List.replicate 33 .engine
    ++ [.command (encode (.setdir .decrypt)), .command (encode .start)] ++ List.replicate 33 .engine)), rfl, rfl, rfl, rfl⟩
theorem witness_EngineFinishesWithin33Steps : (idleWith 0x4000000000#40).Inv := by decide
theorem witness_KeyStringRule : parseKey (List.replicate 64 'f') = .ok (Vector.replicate 8 0xFFFFFFFF#32) := by decide
theorem witness_DigitsAreBigEndian :
    (List.replicate 16 (5#4 : Nibble)).length = 16 ∧ [0x74#8, 0x65#8][1]? = some 0x65#8 := by decide
theorem witness_MisalignedInputRule :
    ∃ p q : HostParams, p.truncate = false ∧ q.truncate = true ∧ (List.replicate 33 (5#4 : Nibble)).length % 16 ≠ 0
      ∧ (List.replicate 32 (5#4 : Nibble)).length % 16 = 0 ∧ 1 < (List.replicate 33 (5#4 : Nibble)).length / 16 :=
  ⟨{ encodeText := fun _ => [], decodeText := fun _ => none, stripFiller := id },
    { truncate := true, encodeText := fun _ => [], decodeText := fun _ => none, stripFiller := id }, rfl, rfl, by decide, by decide, by decide⟩

end Sys2Proof.Tests
end

section
/-! PROOFS. The adder and the rotator (00_scope R6; 42_round_function R90, R91, R97): the model's rotation is the library's
`BitVec.rotateLeft`, and every fact about it is read off there. -/

namespace Sys2Proof.Machine

theorem toNat_add32 (l k : Word) : (add32 l k).toNat = (l.toNat + k.toNat) % 2 ^ 32 :=
  BitVec.toNat_add l k

/-- R97: the count 0, which the model singles out, is no exception to the circular rotation. -/
theorem rol32_eq_rotateLeft (x : Word) (n : Fin 32) : rol32 x n = x.rotateLeft n.val := by
  unfold rol32
  split
  case isTrue h => simp [h, BitVec.rotateLeft_def, BitVec.ushiftRight_eq_zero]
  case isFalse => rw [BitVec.rotateLeft_def, Nat.mod_eq_of_lt n.isLt]

@[simp] theorem rol32_zero (x : Word) : rol32 x 0 = x := rfl

/-- R6: the bits below `32 - n` move up by `n`, and the `n` bits above wrap to the bottom. -/
theorem getLsbD_rol32 (x : Word) (n : Fin 32) (i : Nat) (hi : i < 32) :
    (rol32 x n).getLsbD ((i + n.val) % 32) = x.getLsbD i := by
  have hn := n.isLt
  rw [rol32_eq_rotateLeft, BitVec.getLsbD_rotateLeft_of_le hn]
  by_cases hwrap : i + n.val < 32
  · have hpos : (i + n.val) % 32 = i + n.val := Nat.mod_eq_of_lt hwrap
    simp [hpos, hwrap]
  · have hpos : (i + n.val) % 32 = i + n.val - 32 := by omega
    have hlow : i + n.val - 32 < n.val := by omega
    have hback : 32 - n.val + (i + n.val - 32) = i := by omega
    simp [hpos, hlow, hback]

/-- R91: `u = { t[20:0], t[31:21] }`. -/
theorem rol11_eq_append (t : Word) : rol11 t = t.extractLsb' 0 21 ++ t.extractLsb' 21 11 := by
  rw [rol11, rol32_eq_rotateLeft]
  refine BitVec.eq_of_getLsbD_eq fun i hi => ?_
  rw [BitVec.getLsbD_rotateLeft_of_le (by decide), BitVec.getLsbD_append]
  by_cases hlow : i < 11
  · simp [hlow]
  · have hfield : i - 11 < 21 := by omega
    simp [hlow, hi, hfield]

/-- Settles O48: the rotation is `BitVec.rotateLeft`, whose bits the library gives on each side of the wrap. -/
theorem adderAndRotator : Obligations.AdderAndRotator :=
  ⟨toNat_add32, getLsbD_rol32, rol32_zero, fun t => ⟨rfl, rol11_eq_append t⟩⟩

end Sys2Proof.Machine
end

section
/-! PROOFS. What a step makes of the registers, as one relation with a constructor for each effect: the invariants and the writers of
each register (10_state) are read off it case by case. -/

namespace Sys2Proof.Machine

section Popped
variable (s : State)

@[simp] theorem popped_key : s.popped.key = s.key := rfl
@[simp] theorem popped_kv : s.popped.kv = s.kv := rfl
@[simp] theorem popped_dir : s.popped.dir = s.dir := rfl
@[simp] theorem popped_l : s.popped.l = s.l := rfl
@[simp] theorem popped_r : s.popped.r = s.r := rfl
@[simp] theorem popped_rnd : s.popped.rnd = s.rnd := rfl
@[simp] theorem popped_busy : s.popped.busy = s.busy := rfl
@[simp] theorem popped_done : s.popped.done = s.done := rfl
@[simp] theorem popped_schedule : s.popped.schedule = s.schedule.tail := rfl
@[simp] theorem popped_responses : s.popped.responses = s.responses := rfl

theorem keyOk_iff : s.keyOk = true ↔ s.kv = 0xFF#8 := by simp [State.keyOk]

end Popped

/-- The effects of one step on the registers, each with its cause: a word that is only answered, one of the four writes of a command
accepted while idle, `E-ROUND`, `E-FINAL`, the engine's turn with neither enabled, and a reset. -/
inductive StepEffect (s : State) : State → Prop
  | answer {cw} (hcw : s.commandNext cw) (c : ResponseCode) (x : Word) : StepEffect s (s.popped.respond c x)
  | ldkey {cw k w} (hcw : s.commandNext cw) (hdec : decode cw = .ok (.ldkey k w)) (hidle : s.busy = false) :
      StepEffect s (((s.popped.setKeyWord k w).markKeyLoaded k).respond .ok 0#32)
  | setdir {cw d} (hcw : s.commandNext cw) (hdec : decode cw = .ok (.setdir d)) (hidle : s.busy = false) :
      StepEffect s ({ s.popped with dir := d }.respond .ok 0#32)
  | ldblk {cw b w} (hcw : s.commandNext cw) (hdec : decode cw = .ok (.ldblk b w)) (hidle : s.busy = false) :
      StepEffect s ({ s.popped.setHalf b w with done := false }.respond .ok 0#32)
  | start {cw} (hcw : s.commandNext cw) (hdec : decode cw = .ok .start) (hidle : s.busy = false) (hkv : s.kv = 0xFF#8) :
      StepEffect s (s.popped.beginOperation.respond .ok 0#32)
  | round (hturn : s.engineNext) (hbusy : s.busy = true) (hrnd : s.rnd < 32#6) : StepEffect s (s.popped.engineRound Config.sbox)
  | final (hturn : s.engineNext) (hbusy : s.busy = true) (hrnd : s.rnd = 32#6) : StepEffect s s.popped.engineFinal
  | still (hturn : s.engineNext) (hdisabled : s.busy = false ∨ 32#6 < s.rnd) : StepEffect s s.popped
  | reset (hturn : s.resetNext) : StepEffect s s.popped.applyReset

theorem stepEffect_of_exec {s t : State} {cw : CommandWord} {i : Instr} (hcw : s.commandNext cw) (hdec : decode cw = .ok i)
    (h : exec i s.popped = .next t) : StepEffect s t := by
  obtain ⟨c, x, rfl⟩ | ⟨hidle, k, w, rfl, rfl⟩ | ⟨hidle, d, rfl, rfl⟩ | ⟨hidle, b, w, rfl, rfl⟩ | ⟨hidle, hkey, rfl, rfl⟩ :=
    exec_next_cases h
  · exact .answer hcw c x
  · exact .ldkey hcw hdec hidle
  · exact .setdir hcw hdec hidle
  · exact .ldblk hcw hdec hidle
  · exact .start hcw hdec hidle ((keyOk_iff s).mp hkey)

theorem stepEffect_of_engineNext {s : State} (hturn : s.engineNext) : StepEffect s (s.popped.engineStep Config.sbox) := by
  obtain ⟨hbusy, hrnd, e⟩ | ⟨hbusy, hrnd, e⟩ | ⟨hdisabled, e⟩ := engineStep_cases Config.sbox s.popped <;> rw [e]
  · exact .round hturn hbusy hrnd
  · exact .final hturn hbusy hrnd
  · exact .still hturn hdisabled

theorem stepEffect_of_step {s t : State} (h : step s = .next t) : StepEffect s t := by
  obtain ⟨cw, i, hcw, hdec, h⟩ | ⟨cw, e, hcw, -, rfl⟩ | ⟨hturn, rfl⟩ | ⟨hturn, rfl⟩ := step_next_cases h
  · exact stepEffect_of_exec hcw hdec h
  · exact .answer hcw _ _
  · exact stepEffect_of_engineNext hturn
  · exact .reset hturn

theorem step_of_commandNext {s : State} {cw : CommandWord} (hcw : s.commandNext cw) : step s = runWord cw s.popped := by
  rw [step, nextMove_of_head hcw, runMove]

end Sys2Proof.Machine
end

section
/-! PROOFS. The reset state (10_state R22) and the invariants (R23): one lemma for each update of the state, then every step, then
every run from reset. -/

namespace Sys2Proof.Machine

/-- Settles O34: the reset state is closed, and its key words are finitely many. -/
theorem resetValues : Obligations.ResetValues := by
  unfold Obligations.ResetValues
  decide

/-- Settles O35: the invariants are decidable at a closed state. -/
theorem resetMeetsTheInvariants : Obligations.ResetMeetsTheInvariants := by
  unfold Obligations.ResetMeetsTheInvariants
  decide

section Inv
variable {s : State}

theorem State.Inv.popped (h : s.Inv) : s.popped.Inv := h

theorem State.Inv.respond (h : s.Inv) (c : ResponseCode) (x : Word) : (s.respond c x).Inv := h

theorem State.Inv.setDir (h : s.Inv) (d : Direction) : State.Inv { s with dir := d } := h

theorem State.Inv.applyReset : s.applyReset.Inv := resetMeetsTheInvariants

/-- R23 (d): the key word that is written is the one whose flag is set. -/
theorem State.Inv.loadKey (h : s.Inv) (hidle : s.busy = false) (k : KeyIndex) (w : Word) :
    ((s.setKeyWord k w).markKeyLoaded k).Inv := by
  obtain ⟨hrnd, hdone, -, hkey⟩ := h
  refine ⟨hrnd, hdone, by simp [hidle], fun i hi => ?_⟩
  rw [kv_markKeyLoaded] at hi
  obtain ⟨hne, hflag⟩ : i ≠ k ∧ s.kv.getLsbD i.toNat = false := by simpa using hi
  calc (s.setKeyWord k w).keyWord i
      _ = s.keyWord i := by simp [keyWord_setKeyWord, hne]
      _ = 0#32 := hkey i hflag

theorem State.Inv.loadHalf (h : s.Inv) (hidle : s.busy = false) (b : Half) (w : Word) :
    State.Inv { s.setHalf b w with done := false } := by
  obtain ⟨hrnd, -, -, hkey⟩ := h
  cases b <;> exact ⟨hrnd, by simp, by simp [hidle], hkey⟩

theorem State.Inv.beginOperation (h : s.Inv) (hkv : s.kv = 0xFF#8) : s.beginOperation.Inv := by
  obtain ⟨-, -, -, hkey⟩ := h
  exact ⟨by simp, by simp, by simp [hkv], hkey⟩

/-- R23 (a): a round is taken below 32 only, so that `RND` ends at 32 at most. -/
theorem State.Inv.engineRound (h : s.Inv) (hbusy : s.busy = true) (hrnd : s.rnd < 32#6) (S : SBoxBank) :
    (s.engineRound S).Inv := by
  obtain ⟨-, -, hop, hkey⟩ := h
  obtain ⟨hkv, hdone⟩ := hop hbusy
  exact ⟨by rw [engineRound_rnd]; bv_omega, by simp [hdone], by simp [hkv, hdone], hkey⟩

theorem State.Inv.engineFinal (h : s.Inv) (hrnd : s.rnd = 32#6) : s.engineFinal.Inv := by
  obtain ⟨hle, -, -, hkey⟩ := h
  exact ⟨hle, by simp [hrnd], by simp, hkey⟩

theorem State.Inv.step {t : State} (h : s.Inv) (hstep : step s = .next t) : t.Inv := by
  cases stepEffect_of_step hstep with
  | answer => exact h.popped.respond _ _
  | ldkey _ _ hidle => exact (h.popped.loadKey hidle _ _).respond _ _
  | setdir => exact (h.popped.setDir _).respond _ _
  | ldblk _ _ hidle => exact (h.popped.loadHalf hidle _ _).respond _ _
  | start _ _ _ hkv => exact (h.popped.beginOperation hkv).respond _ _
  | round _ hbusy hrnd => exact h.popped.engineRound hbusy hrnd _
  | final _ _ hrnd => exact h.popped.engineFinal hrnd
  | still => exact h.popped
  | reset => exact State.Inv.applyReset

end Inv

/-- Settles O36: each effect of a step keeps the invariants. -/
theorem everyStepKeepsTheInvariants : Obligations.EveryStepKeepsTheInvariants := fun _ _ => State.Inv.step

theorem inv_of_runSteps_reset {ms : List Move} {n : Nat} {t : State}
    (h : runSteps n { State.reset with schedule := ms } = .next t) : t.Inv :=
  runSteps_keeps everyStepKeepsTheInvariants n { State.reset with schedule := ms } t resetMeetsTheInvariants h

end Sys2Proof.Machine
end

section
/-! PROOFS. The fields of the status word (10_state R19), which give R23 (e) and (f) in every state. -/

namespace Sys2Proof.Machine

section Status
variable (s : State)

theorem status_bit_one : s.status.getLsbD 1 = s.done := by
  simp [State.status]

theorem status_bit_two : s.status.getLsbD 2 = decide (s.dir = .decrypt) := by
  cases h : s.dir <;> simp [State.status, Direction.bit, h]

theorem status_bit_three : s.status.getLsbD 3 = decide (s.kv = 0xFF#8) := by
  simp [State.status, State.keyOk, beq_eq_decide]

theorem status_reserved_low : s.status.extractLsb' 4 4 = 0#4 := by
  refine BitVec.eq_of_getLsbD_eq fun i hi => ?_
  interval_cases i <;> simp [State.status]

theorem status_kv : s.status.extractLsb' 8 8 = s.kv := by
  refine BitVec.eq_of_getLsbD_eq fun i hi => ?_
  interval_cases i <;> simp [State.status]

theorem status_rnd : s.status.extractLsb' 16 6 = s.rnd := by
  refine BitVec.eq_of_getLsbD_eq fun i hi => ?_
  interval_cases i <;> simp [State.status]

theorem status_reserved_high : s.status.extractLsb' 22 10 = 0#10 := by
  refine BitVec.eq_of_getLsbD_eq fun i hi => ?_
  interval_cases i <;> simp [State.status]

end Status

/-- Settles O22: the answer is the status word, field by field. -/
theorem rdstAnswersTheStatusFields : Obligations.RdstAnswersTheStatusFields := fun s =>
  ⟨rfl, rfl, s.status, rfl, status_bit_zero s, status_bit_one s, status_bit_two s, status_bit_three s,
    status_reserved_low s, status_kv s, status_rnd s, status_reserved_high s⟩

/-- Settles O37: (a) to (d) are the invariants, which every run from reset keeps, and (e) and (f) hold in every state. -/
theorem reachableStatesMeetTheInvariants : Obligations.ReachableStatesMeetTheInvariants := by
  intro ms n t h
  obtain ⟨hrnd, hdone, hbusy, hkey⟩ := inv_of_runSteps_reset h
  refine ⟨hrnd, hdone, hbusy, hkey, ⟨status_reserved_low t, status_reserved_high t⟩, ?_⟩
  rw [status_bit_three, status_kv, decide_eq_true_iff]

end Sys2Proof.Machine
end

section
/-! PROOFS. Which command and which step writes which register (10_state R11, R12, R15, R17, R24). -/

namespace Sys2Proof.Machine

/-- Settles O24: of the five things a command can do, each leaves the registers that are not its own. -/
theorem commandFrames : Obligations.CommandFrames := by
  intro i s t h
  obtain ⟨c, x, rfl⟩ | ⟨-, j, w, rfl, rfl⟩ | ⟨-, d, rfl, rfl⟩ | ⟨-, b, w, rfl, rfl⟩ | ⟨-, -, rfl, rfl⟩ := exec_next_cases h
  case inl => simp [State.keyWord]
  case inr.inl =>
    have hother : ∀ k, (∀ v, Instr.ldkey j w ≠ .ldkey k v) → k ≠ j := fun k hk e => hk w (e ▸ rfl)
    refine ⟨fun k hk => ?_, fun k hk => ?_, by simp⟩
    · exact (keyWord_setKeyWord s j k w).trans (if_neg (hother k hk))
    · rw [respond_kv, kv_markKeyLoaded]
      simp [hother k hk]
  case inr.inr.inl => simp [State.keyWord]
  case inr.inr.inr.inl => cases b <;> simp [State.keyWord]
  case inr.inr.inr.inr => simp [State.keyWord]

/-- Settles O29: what writes these registers is a reset or a command accepted while idle. -/
theorem keyAndDirectionFrozenWhileBusy : Obligations.KeyAndDirectionFrozenWhileBusy := by
  intro s t hbusy hnoreset h
  cases stepEffect_of_step h with
  | answer | round | final | still => simp
  | ldkey _ _ hidle | setdir _ _ hidle | ldblk _ _ hidle | start _ _ hidle => simp [hbusy] at hidle
  | reset hturn => exact absurd hturn hnoreset

/-- Settles O38: three effects change `RND`. -/
theorem writersOfTheRoundCounter : Obligations.WritersOfTheRoundCounter := by
  intro s t h hchanged
  cases stepEffect_of_step h with
  | answer | ldkey | setdir | ldblk | final | still => simp at hchanged
  | start hcw hdec hidle hkv => exact .inr (.inl ⟨⟨_, hcw, hdec⟩, hidle, hkv, rfl⟩)
  | round hturn hbusy hrnd =>
    have hsucc : (s.rnd + 1#6).toNat = s.rnd.toNat + 1 := by bv_omega
    exact .inr (.inr ⟨hturn, hbusy, hrnd, hsucc⟩)
  | reset hturn => exact .inl ⟨hturn, rfl⟩

section Flags
variable {s t : State}

theorem kv_set_only_by_ldkey {i : KeyIndex} (h : step s = .next t) (hclear : s.kv.getLsbD i.toNat = false)
    (hset : t.kv.getLsbD i.toNat = true) : s.busy = false ∧ ∃ cw w, s.commandNext cw ∧ decode cw = .ok (.ldkey i w) := by
  cases stepEffect_of_step h with
  | ldkey hcw hdec hidle =>
    rw [respond_kv, kv_markKeyLoaded] at hset
    obtain rfl : i = _ := by simpa [hclear] using hset
    exact ⟨hidle, _, _, hcw, hdec⟩
  | reset => simp [State.reset] at hset
  | answer | setdir | ldblk | start | round | final | still => simp [hclear] at hset

theorem kv_cleared_only_by_reset {i : KeyIndex} (h : step s = .next t) (hset : s.kv.getLsbD i.toNat = true)
    (hclear : t.kv.getLsbD i.toNat = false) : s.resetNext := by
  cases stepEffect_of_step h with
  | reset hturn => exact hturn
  | ldkey => simp [hset] at hclear
  | answer | setdir | ldblk | start | round | final | still => simp [hset] at hclear

theorem done_set_only_by_final (h : step s = .next t) (hclear : s.done = false) (hset : t.done = true) :
    s.engineNext ∧ s.busy = true ∧ s.rnd = 32#6 := by
  cases stepEffect_of_step h with
  | final hturn hbusy hrnd => exact ⟨hturn, hbusy, hrnd⟩
  | reset => simp [State.reset] at hset
  | answer | ldkey | setdir | ldblk | start | round | still => simp [hclear] at hset

theorem done_cleared_only_by_start_ldblk_reset (h : step s = .next t) (hset : s.done = true) (hclear : t.done = false) :
    s.resetNext ∨ (s.busy = false ∧ ∃ cw, s.commandNext cw
      ∧ ((decode cw = .ok .start ∧ s.kv = 0xFF#8) ∨ ∃ b w, decode cw = .ok (.ldblk b w))) := by
  cases stepEffect_of_step h with
  | ldblk hcw hdec hidle => exact .inr ⟨hidle, _, hcw, .inr ⟨_, _, hdec⟩⟩
  | start hcw hdec hidle hkv => exact .inr ⟨hidle, _, hcw, .inl ⟨hdec, hkv⟩⟩
  | reset hturn => exact .inl hturn
  | answer | ldkey | setdir | round | final | still => simp [hset] at hclear

end Flags

/-- Settles O39: setting and clearing a flag each have their one cause. -/
theorem writersOfTheKeyFlags : Obligations.WritersOfTheKeyFlags :=
  fun _ _ _ h => ⟨kv_set_only_by_ldkey h, kv_cleared_only_by_reset h⟩

/-- Settles O40: setting and clearing `DONE` each have their causes. -/
theorem writersOfDone : Obligations.WritersOfDone :=
  fun _ _ h => ⟨done_set_only_by_final h, done_cleared_only_by_start_ldblk_reset h⟩

/-- Settles O41: by the invariants the engine is idle, and what a host writes into `L` or `R` clears `DONE`. -/
theorem doneKeepsTheResult : Obligations.DoneKeepsTheResult := by
  intro s t hinv hdone h hstill
  obtain ⟨-, hfinished, -, -⟩ := hinv
  obtain ⟨hidle, -⟩ := hfinished hdone
  cases stepEffect_of_step h with
  | answer | ldkey | setdir | still => simp
  | ldblk | start => simp at hstill
  | round _ hbusy | final _ hbusy => simp [hidle] at hbusy
  | reset => simp [State.reset] at hstill

end Sys2Proof.Machine
end

section
/-! PROOFS. No command reads the key (10_state R11): with another key in its place a word does the same to everything else. -/

namespace Sys2Proof.Machine

/-- Two outcomes that differ in the key only. -/
def SameButKey (o o' : Result) : Prop := ∃ t k, o = .next t ∧ o' = .next { t with key := k }

theorem whenIdle_withKey {s : State} {k : KeyWords} {body body' : Result} (h : SameButKey body body') :
    SameButKey (whenIdle s body) (whenIdle { s with key := k } body') := by
  rcases Bool.eq_false_or_eq_true s.busy with hbusy | hidle
  · rw [whenIdle_of_busy hbusy, whenIdle_of_busy (s := { s with key := k }) hbusy]
    exact ⟨_, k, rfl, rfl⟩
  · rwa [whenIdle_of_idle hidle, whenIdle_of_idle (s := { s with key := k }) hidle]

theorem exec_withKey (i : Instr) (s : State) (k : KeyWords) : SameButKey (exec i s) (exec i { s with key := k }) := by
  cases i with
  | nop | rdst => exact ⟨_, _, rfl, rfl⟩
  | ldkey | setdir => exact whenIdle_withKey ⟨_, _, rfl, rfl⟩
  | ldblk h | rdblk h => cases h <;> exact whenIdle_withKey ⟨_, _, rfl, rfl⟩
  | start =>
    refine whenIdle_withKey ?_
    change SameButKey _ (if s.keyOk then _ else _)
    split <;> exact ⟨_, _, rfl, rfl⟩

theorem runWord_withKey (cw : CommandWord) (s : State) (k : KeyWords) :
    SameButKey (runWord cw s) (runWord cw { s with key := k }) := by
  unfold runWord
  split
  · exact exec_withKey _ s k
  · exact ⟨_, k, rfl, rfl⟩

/-- Settles O30: no meaning of a word looks at the key. -/
theorem noCommandRevealsTheKey : Obligations.NoCommandRevealsTheKey := by
  intro s t u cw k hcw ht hu
  rw [step_of_commandNext hcw] at ht
  rw [step_of_commandNext (s := { s with key := k }) hcw] at hu
  obtain ⟨v, k', hv, hv'⟩ := runWord_withKey cw s.popped k
  obtain rfl : v = t := Host.Outcome.next.inj (hv.symm.trans ht)
  obtain rfl : { v with key := k' } = u := Host.Outcome.next.inj (hv'.symm.trans hu)
  rfl

end Sys2Proof.Machine
end

section
/-! PROOFS. What a step makes of the host's word (20_memory R32; 30_encoding R62; 44_host_commands R120): the decoded command is run,
and the word of a command decodes back to it. -/

namespace Sys2Proof

/-- The four fields of a word are read off its number. -/
theorem fields_of_toNat {cw : CommandWord} (o : BitVec 4) (k : BitVec 3) (w : Word)
    (h : cw.toNat = o.toNat * 2 ^ 36 + k.toNat * 2 ^ 32 + w.toNat) :
    zField cw = 0#1 ∧ opcField cw = o ∧ idxField cw = k ∧ dataField cw = w := by
  have hk := k.isLt
  have hw := w.isLt
  refine ⟨?_, ?_, ?_, ?_⟩ <;> apply BitVec.eq_of_toNat_eq <;>
    simp only [zField, opcField, idxField, dataField, BitVec.extractLsb'_toNat, Nat.shiftRight_eq_div_pow, BitVec.toNat_ofNat]
      <;> omega

theorem halfOfIdx_bit (h : Half) : halfOfIdx (h.bit.setWidth 3) = some h := by
  cases h <;> rfl

/-- R62: `encode` is inverted by `decode`. -/
theorem decode_encode (i : Instr) : decode (encode i) = .ok i := by
  cases i with
  | nop | start | rdst => rfl
  | setdir d => cases d <;> rfl
  | rdblk h => cases h <;> rfl
  | ldkey k w =>
    obtain ⟨hz, ho, hk, hw⟩ := fields_of_toNat 1#4 k w (encode_toNat (.ldkey k w))
    simp [decode, hz, ho, hk, hw]
  | ldblk h w =>
    have hn : (encode (.ldblk h w)).toNat = (3#4).toNat * 2 ^ 36 + (h.bit.setWidth 3).toNat * 2 ^ 32 + w.toNat := by
      rw [encode_toNat]
      cases h <;> rfl
    obtain ⟨hz, ho, hh, hw⟩ := fields_of_toNat _ _ _ hn
    simp [decode, decodeLdblk, hz, ho, hh, hw, halfOfIdx_bit]

/-- The number of a word numbers that word. -/
theorem ofNat_tableBits_toNat (cw : CommandWord) : BitVec.ofNat 40 (tableBits 40 cw.toNat) = cw := by
  rw [tableBits, Nat.mod_eq_of_lt cw.isLt, BitVec.ofNat_toNat, BitVec.setWidth_eq]

theorem decodeTableWord_toNat (cw : CommandWord) : decodeTableWord 40 cw.toNat = (decode cw).toOption := by
  have hlt : tableBits 40 cw.toNat < 2 ^ 40 := Nat.mod_lt _ (by decide)
  rw [decodeTableWord, if_pos hlt, ofNat_tableBits_toNat]

end Sys2Proof

namespace Sys2Proof.Machine

theorem runWord_of_decode {cw : CommandWord} {i : Instr} (h : decode cw = .ok i) (s : State) : runWord cw s = exec i s := by
  rw [runWord, h]

theorem withFetchWord_toNat (s : State) (cw : CommandWord) : s.withFetchWord 40 cw.toNat = s.presentCommand cw := by
  rw [State.withFetchWord, ofNat_tableBits_toNat]

/-- A word that is presented is run on the state it was presented in: it stands on the schedule for the one step only. -/
theorem step_presentCommand (s : State) (cw : CommandWord) : step (s.presentCommand cw) = runWord cw s :=
  step_of_commandNext rfl

/-- Settles O9: the step runs the word, and the word runs the command it decodes to. -/
theorem stepRunsTheDecodedCommand : Obligations.StepRunsTheDecodedCommand := by
  intro s cw i hcw hdec
  exact (step_of_commandNext hcw).trans (runWord_of_decode hdec s.popped)

/-- Settles O14: the placed number is that of the command's own word, which decodes back to the command. -/
theorem presentedCommandRunsNext : Obligations.PresentedCommandRunsNext := by
  intro i s
  constructor
  · rw [withFetchWord_toNat, step_presentCommand, runWord_of_decode (decode_encode i)]
  · rw [decodeTableWord_toNat, decode_encode]
    rfl

end Sys2Proof.Machine
end

section
/-! PROOFS. The responses (20_memory R32, 30_encoding R55, 70_reset_and_hazards R180): one for each word, none for any other move. -/

namespace Sys2Proof

/-- The two commands that answer with data (R125, R126). -/
def Instr.IsRead (i : Instr) : Prop := i = .rdst ∨ ∃ h, i = .rdblk h

end Sys2Proof

namespace Sys2Proof.Machine

/-- The outcome is a next state with one response more than `s`, whose data is 0 unless the command is a read. -/
def AnswersOnce (s : State) (isRead : Prop) (o : Result) : Prop :=
  ∃ t c x, o = .next t ∧ t.responses = s.responses ++ [⟨c, x⟩] ∧ (¬ isRead → x = 0#32)

theorem answersOnce_whenIdle {s : State} {isRead : Prop} {body : Result} (h : AnswersOnce s isRead body) :
    AnswersOnce s isRead (whenIdle s body) := by
  unfold whenIdle
  split
  · exact ⟨_, .errBusy, 0#32, rfl, rfl, fun _ => rfl⟩
  · exact h

theorem exec_answersOnce (i : Instr) (s : State) : AnswersOnce s i.IsRead (exec i s) := by
  cases i with
  | nop => exact ⟨_, .ok, 0#32, rfl, rfl, fun _ => rfl⟩
  | ldkey | setdir => exact answersOnce_whenIdle ⟨_, .ok, 0#32, rfl, rfl, fun _ => rfl⟩
  | ldblk => exact answersOnce_whenIdle ⟨_, .ok, 0#32, rfl, by simp, fun _ => rfl⟩
  | start =>
    refine answersOnce_whenIdle ?_
    split
    · exact ⟨_, .ok, 0#32, rfl, rfl, fun _ => rfl⟩
    · exact ⟨_, .errNoKey, 0#32, rfl, rfl, fun _ => rfl⟩
  | rdblk h => exact answersOnce_whenIdle ⟨_, .ok, s.half h, rfl, rfl, fun hno => absurd (.inr ⟨h, rfl⟩) hno⟩
  | rdst => exact ⟨_, .ok, s.status, rfl, rfl, fun hno => absurd (.inl rfl) hno⟩

theorem responses_of_exec {i : Instr} {s t : State} (h : exec i s = .next t) :
    ∃ x, t.responses = s.responses ++ [x] ∧ (¬ i.IsRead → x.data = 0#32) := by
  obtain ⟨u, c, x, hu, hresp, hdata⟩ := exec_answersOnce i s
  obtain rfl : u = t := Host.Outcome.next.inj (hu.symm.trans h)
  exact ⟨⟨c, x⟩, hresp, hdata⟩

/-- Settles O27: a legal word is answered by its command and an illegal one by its rejection; the engine and a reset leave the
responses alone. -/
theorem oneResponsePerCommand : Obligations.OneResponsePerCommand := by
  intro s t h
  obtain ⟨cw, i, hcw, hdec, h⟩ | ⟨cw, e, hcw, -, rfl⟩ | ⟨hturn, rfl⟩ | ⟨hturn, rfl⟩ := step_next_cases h
  case inl =>
    obtain ⟨hengine, hreset, hunique⟩ := commandNext_excludes hcw
    refine ⟨fun c hc => ?_, fun hother => absurd hother (not_or_intro hengine hreset)⟩
    obtain rfl := hunique c hc
    obtain ⟨x, hresp, hdata⟩ := responses_of_exec h
    refine ⟨x, hresp, fun hrdblk hrdst => hdata ?_⟩
    rintro (rfl | ⟨b, rfl⟩)
    · exact hrdst hdec
    · exact hrdblk b hdec
  case inr.inl =>
    obtain ⟨hengine, hreset, -⟩ := commandNext_excludes hcw
    exact ⟨fun _ _ => ⟨_, rfl, fun _ _ => rfl⟩, fun hother => absurd hother (not_or_intro hengine hreset)⟩
  case inr.inr.inl =>
    obtain ⟨-, -, -, -, hresp⟩ := engineStep_frame Config.sbox s.popped
    exact ⟨fun _ hc => absurd hturn (commandNext_excludes hc).1, fun _ => hresp⟩
  case inr.inr.inr =>
    exact ⟨fun _ hc => absurd hturn (commandNext_excludes hc).2.1, fun _ => rfl⟩

end Sys2Proof.Machine
end

section
/-! PROOFS. Commands that are repeated at once (20_memory R38): a read answers the same again, a write leaves what the first left. -/

namespace Sys2Proof.Machine

/-- What a read answers does not depend on the responses before it. -/
theorem exec_of_isRead {i : Instr} (hi : i.IsRead) (s : State) :
    ∃ x, ∀ rs, exec i { s with responses := rs } = .next { s with responses := rs ++ [x] } := by
  obtain rfl | ⟨h, rfl⟩ := hi
  · exact ⟨⟨.ok, s.status⟩, fun _ => rfl⟩
  · rcases Bool.eq_false_or_eq_true s.busy with hbusy | hidle
    · exact ⟨⟨.errBusy, 0#32⟩, fun rs => whenIdle_of_busy (s := { s with responses := rs }) hbusy _⟩
    · refine ⟨⟨.ok, s.half h⟩, fun rs => (whenIdle_of_idle (s := { s with responses := rs }) hidle _).trans ?_⟩
      cases h <;> rfl

/-- Settles O32: the same answer comes before and after the first read is answered. -/
theorem readsHaveNoSideEffect : Obligations.ReadsHaveNoSideEffect := by
  intro i s t hi h
  obtain ⟨x, hx⟩ := exec_of_isRead hi s
  obtain rfl : { s with responses := s.responses ++ [x] } = t := Host.Outcome.next.inj ((hx s.responses).symm.trans h)
  refine ⟨x, rfl, (hx (s.responses ++ [x])).trans ?_⟩
  rw [List.append_assoc]
  rfl

/-- A write that leaves `BUSY` alone, and that makes no difference once it is made, may be repeated: while busy it is rejected
twice, while idle the second finds the registers as it leaves them. -/
theorem repeat_write {f : State → State} (hbusy : ∀ s, (f s).busy = s.busy)
    (hidem : ∀ s c x, f ((f s).respond c x) = (f s).respond c x) {s t : State} (h : whenIdle s (accept 0#32 (f s)) = .next t) :
    ∃ u, whenIdle t (accept 0#32 (f t)) = .next u ∧ u = { t with responses := u.responses } := by
  obtain ⟨hb, rfl⟩ | ⟨hb, h⟩ := whenIdle_next_cases h
  · exact ⟨_, whenIdle_of_busy (s := s.respond .errBusy 0#32) hb _, rfl⟩
  · obtain rfl := (accept_next_iff _ _ _).mp h
    have hidle : ((f s).respond .ok 0#32).busy = false := (hbusy s).trans hb
    rw [whenIdle_of_idle hidle, hidem]
    exact ⟨_, rfl, rfl⟩

/-- R122: the second load writes the word that stands there, and sets the flag that is set. -/
theorem loadKey_respond_loadKey (s : State) (k : KeyIndex) (w : Word) (c : ResponseCode) (x : Word) :
    ((((s.setKeyWord k w).markKeyLoaded k).respond c x).setKeyWord k w).markKeyLoaded k
      = ((s.setKeyWord k w).markKeyLoaded k).respond c x := by
  simp [State.setKeyWord, State.markKeyLoaded, State.respond, BitVec.or_assoc]

/-- Settles O33: each of the three writes makes no difference once it is made. -/
theorem writesAreIdempotent : Obligations.WritesAreIdempotent := by
  rintro i s t (⟨k, w, rfl⟩ | ⟨d, rfl⟩ | ⟨h, w, rfl⟩) hexec
  · exact repeat_write (f := fun s => (s.setKeyWord k w).markKeyLoaded k) (fun _ => rfl)
      (fun s => loadKey_respond_loadKey s k w) hexec
  · exact repeat_write (f := fun s => { s with dir := d }) (fun _ => rfl) (fun _ _ _ => rfl) hexec
  · exact repeat_write (f := fun s => { s.setHalf h w with done := false }) (fun s => setHalf_busy s h w)
      (fun _ _ _ => by cases h <;> rfl) hexec

end Sys2Proof.Machine
end

section
/-! PROOFS. Hexadecimal digits (20_memory R34 to R36, R143): a word as the number with its digits in base 16, a block as sixteen
digits, a message as two digits a byte. -/

namespace Sys2Proof.Message

open Sys2Proof.Machine

theorem wordOfDigits_append_singleton (ds : List Nibble) (d : Nibble) :
    wordOfDigits (ds ++ [d]) = wordOfDigits ds * 16#32 + d.setWidth 32 := by
  simp [wordOfDigits]

/-- Digits, most significant first, are the digits of the word's number in base 16. -/
theorem toNat_wordOfDigits (ds : List Nibble) :
    (wordOfDigits ds).toNat = Nat.ofDigits 16 (ds.reverse.map BitVec.toNat) % 2 ^ 32 := by
  induction ds using List.reverseRecOn with
  | nil => rfl
  | append_singleton ds d ih =>
    have hd := d.isLt
    have hmod : d.toNat % 2 ^ 32 = d.toNat := Nat.mod_eq_of_lt (by omega)
    rw [wordOfDigits_append_singleton, BitVec.toNat_add, BitVec.toNat_mul, BitVec.toNat_setWidth, ih, List.reverse_append,
      List.reverse_singleton, List.singleton_append, List.map_cons, Nat.ofDigits_cons, hmod]
    simp only [BitVec.toNat_ofNat]
    omega

theorem toNat_digit_lt {ds : List Nibble} : ∀ n ∈ ds.reverse.map BitVec.toNat, n < 16 := by
  intro n hn
  obtain ⟨d, -, rfl⟩ := List.mem_map.mp hn
  exact d.isLt

/-- R35: eight digits do not overflow a word. -/
theorem toNat_wordOfDigits_of_length {ds : List Nibble} (h : ds.length = 8) :
    (wordOfDigits ds).toNat = Nat.ofDigits 16 (ds.reverse.map BitVec.toNat) := by
  have hlt := Nat.ofDigits_lt_base_pow_length (by decide) (toNat_digit_lt (ds := ds))
  rw [List.length_map, List.length_reverse, h] at hlt
  exact (toNat_wordOfDigits ds).trans (Nat.mod_eq_of_lt hlt)

/-- Digits in base 16 are unique. -/
theorem wordOfDigits_inj {ds es : List Nibble} (hd : ds.length = 8) (he : es.length = 8) (h : wordOfDigits ds = wordOfDigits es) :
    ds = es := by
  have hnum := congrArg BitVec.toNat h
  rw [toNat_wordOfDigits_of_length hd, toNat_wordOfDigits_of_length he] at hnum
  have hmap := Nat.ofDigits_inj_of_len_eq (by decide) (by simp [hd, he]) toNat_digit_lt toNat_digit_lt hnum
  exact List.reverse_injective (List.map_injective_iff.mpr BitVec.toNat_injective hmap)

theorem ofFn_eight (d : Fin 8 → Nibble) : List.ofFn d = [d 0, d 1, d 2, d 3, d 4, d 5, d 6, d 7] := by
  simp [List.ofFn_succ]

/-- R34, R35: digit `j` stands for `16^(7 - j)`. -/
theorem toNat_wordOfDigits_ofFn (d : Fin 8 → Nibble) :
    (wordOfDigits (List.ofFn d)).toNat = ∑ j : Fin 8, (d j).toNat * 16 ^ (7 - j.val) := by
  rw [toNat_wordOfDigits_of_length (by simp), ofFn_eight, Fin.sum_univ_eight]
  change Nat.ofDigits 16 ([d 7, d 6, d 5, d 4, d 3, d 2, d 1, d 0].map BitVec.toNat) = _
  simp only [List.map_cons, List.map_nil, Nat.ofDigits_cons, Nat.ofDigits_nil, Fin.coe_ofNat_eq_mod, Nat.reduceMod, Nat.reduceSub]
  ring

theorem toNat_nib (w : Word) (j : Fin 8) : (nib w j).toNat = w.toNat / 16 ^ (7 - j.val) % 16 := by
  have hpos : 28 - 4 * j.val = 4 * (7 - j.val) := by omega
  rw [nib, BitVec.extractLsb'_toNat, Nat.shiftRight_eq_div_pow, hpos, pow_mul]
  rfl

theorem digitsOfWord_eq_ofFn (w : Word) : digitsOfWord w = List.ofFn (nib w) :=
  (ofFn_eight (nib w)).symm

@[simp] theorem length_digitsOfWord (w : Word) : (digitsOfWord w).length = 8 := rfl

/-- A word is the word of its digits: the sum of its number's digits in base 16 is the number. -/
@[simp] theorem wordOfDigits_digitsOfWord (w : Word) : wordOfDigits (digitsOfWord w) = w := by
  have hw := w.isLt
  apply BitVec.eq_of_toNat_eq
  rw [digitsOfWord_eq_ofFn, toNat_wordOfDigits_ofFn, Fin.sum_univ_eight]
  simp only [toNat_nib, Fin.coe_ofNat_eq_mod, Nat.reduceMod, Nat.reduceSub]
  omega

theorem digitsOfWord_wordOfDigits {ds : List Nibble} (h : ds.length = 8) : digitsOfWord (wordOfDigits ds) = ds :=
  wordOfDigits_inj rfl h (wordOfDigits_digitsOfWord _)

section Blocks
variable {ds : List Nibble}

theorem blockOfChunk_fst : (blockOfChunk ds).1 = wordOfDigits (ds.take 8) := rfl

theorem blockOfChunk_snd (h : ds.length = 16) : (blockOfChunk ds).2 = wordOfDigits (ds.drop 8) :=
  congrArg wordOfDigits (List.take_of_length_le (by simp [h]))

theorem digitsOfBlock_blockOfChunk (h : ds.length = 16) : digitsOfBlock (blockOfChunk ds) = ds := by
  have hl : digitsOfWord (blockOfChunk ds).1 = ds.take 8 := digitsOfWord_wordOfDigits (by simp [h])
  have hr : digitsOfWord (blockOfChunk ds).2 = ds.drop 8 := by
    rw [blockOfChunk_snd h, digitsOfWord_wordOfDigits (by simp [h])]
  rw [digitsOfBlock, hl, hr, List.take_append_drop]

theorem take_digitsOfBlock (b : Word × Word) : (digitsOfBlock b).take 8 = digitsOfWord b.1 := rfl

theorem drop_digitsOfBlock (b : Word × Word) : (digitsOfBlock b).drop 8 = digitsOfWord b.2 := rfl

theorem blockOfChunk_digitsOfBlock (b : Word × Word) : blockOfChunk (digitsOfBlock b) = b := by
  apply Prod.ext
  · rw [blockOfChunk_fst, take_digitsOfBlock, wordOfDigits_digitsOfWord]
  · rw [blockOfChunk_snd rfl, drop_digitsOfBlock, wordOfDigits_digitsOfWord]

end Blocks

theorem toHex_cons (b : Byte) (m : List Byte) : toHex (b :: m) = b.extractLsb' 4 4 :: b.extractLsb' 0 4 :: toHex m := rfl

theorem length_toHex (m : List Byte) : (toHex m).length = 2 * m.length := by
  induction m with
  | nil => rfl
  | cons b m ih =>
    rw [toHex_cons, List.length_cons, List.length_cons, List.length_cons, ih]
    omega

/-- R143: byte `i` has digits `2i` and `2i + 1`, the high nibble first. -/
theorem getElem?_toHex {m : List Byte} {i : Nat} {b : Byte} (h : m[i]? = some b) :
    (toHex m)[2 * i]? = some (b.extractLsb' 4 4) ∧ (toHex m)[2 * i + 1]? = some (b.extractLsb' 0 4) := by
  induction m generalizing i with
  | nil => simp at h
  | cons a m ih =>
    cases i with
    | zero =>
      obtain rfl : a = b := by simpa using h
      exact ⟨rfl, rfl⟩
    | succ i => exact ih h

/-- Settles O57: the number of a word's digits, the two inverses between digits and words and between digits and blocks, and the
digits of a byte. -/
theorem digitsAreBigEndian : Obligations.DigitsAreBigEndian :=
  ⟨toNat_wordOfDigits_ofFn, fun w => ⟨length_digitsOfWord w, wordOfDigits_digitsOfWord w⟩,
    fun _ h => ⟨blockOfChunk_fst, blockOfChunk_snd h, digitsOfBlock_blockOfChunk h⟩,
    fun b => ⟨take_digitsOfBlock b, drop_digitsOfBlock b, blockOfChunk_digitsOfBlock b⟩,
    fun m => ⟨length_toHex m, fun _ _ => getElem?_toHex⟩⟩

end Sys2Proof.Message
end

section
/-! PROOFS. Command words by their fields (30_encoding R51 to R54, R58, R62): the fields of each command's word, the commands that
`decode` reads, and the one condition on the fields under which a word is legal. -/

namespace Sys2Proof

/-- The value of `OPC` in the command's word (R52). -/
def Instr.opc : Instr → BitVec 4
  | .nop => 0x0#4
  | .ldkey _ _ => 0x1#4
  | .setdir _ => 0x2#4
  | .ldblk _ _ => 0x3#4
  | .start => 0x4#4
  | .rdblk _ => 0x5#4
  | .rdst => 0x6#4

/-- The value of `IDX` in the command's word: its index operand, or 0 (R54). -/
def Instr.idx : Instr → BitVec 3
  | .ldkey k _ => k
  | .setdir d => d.bit.setWidth 3
  | .ldblk h _ => h.bit.setWidth 3
  | .rdblk h => h.bit.setWidth 3
  | _ => 0#3

/-- The value of `DATA` in the command's word: its data operand, or 0 (R54). -/
def Instr.data : Instr → Word
  | .ldkey _ w => w
  | .ldblk _ w => w
  | _ => 0#32

/-- The word's fields are those of the command's word. -/
def Instr.HasFields (i : Instr) (cw : CommandWord) : Prop :=
  zField cw = 0#1 ∧ opcField cw = i.opc ∧ idxField cw = i.idx ∧ dataField cw = i.data

theorem encodeNumber_eq_fields (i : Instr) :
    encodeNumber i = i.opc.toNat * 2 ^ 36 + i.idx.toNat * 2 ^ 32 + i.data.toNat := by
  cases i with
  | nop | ldkey | start | rdst => rfl
  | setdir d => cases d <;> rfl
  | ldblk h w => cases h <;> rfl
  | rdblk h => cases h <;> rfl

theorem hasFields_encode (i : Instr) : i.HasFields (encode i) :=
  fields_of_toNat i.opc i.idx i.data ((encode_toNat i).trans (encodeNumber_eq_fields i))

/-- R62: a word with the fields of a command's word is that word. -/
theorem encode_eq_of_hasFields {i : Instr} {cw : CommandWord} (h : i.HasFields cw) : encode i = cw := by
  obtain ⟨hz, ho, hi, hd⟩ := h
  obtain ⟨ez, eo, ei, ed⟩ := hasFields_encode i
  exact commandWord_ext (eo.trans ho.symm) (ez.trans hz.symm) (ei.trans hi.symm) (ed.trans hd.symm)

theorem eq_bit_of_directionOfIdx {k : BitVec 3} {d : Direction} (h : directionOfIdx k = some d) : k = d.bit.setWidth 3 := by
  cases d <;> revert k <;> decide

theorem eq_bit_of_halfOfIdx {k : BitVec 3} {b : Half} (h : halfOfIdx k = some b) : k = b.bit.setWidth 3 := by
  cases b <;> revert k <;> decide

section Decode
variable {cw : CommandWord} {i j : Instr}

theorem zField_eq_zero_iff : zField cw = 0#1 ↔ cw.getLsbD 35 = false := by
  simp [zField, BitVec.eq_of_getLsbD_eq_iff]

theorem decodeBare_ok (h : decodeBare j cw = .ok i) : j = i ∧ idxField cw = 0#3 ∧ dataField cw = 0#32 := by
  unfold decodeBare at h
  split_ifs at h with hi hd
  exact ⟨Except.ok.inj h, not_not.mp hi, not_not.mp hd⟩

theorem decodeSetdir_ok (h : decodeSetdir cw = .ok i) :
    ∃ d : Direction, .setdir d = i ∧ idxField cw = d.bit.setWidth 3 ∧ dataField cw = 0#32 := by
  unfold decodeSetdir at h
  split at h
  · cases h
  · split_ifs at h with hd
    exact ⟨_, Except.ok.inj h, eq_bit_of_directionOfIdx ‹_›, not_not.mp hd⟩

theorem decodeLdblk_ok (h : decodeLdblk cw = .ok i) :
    ∃ b : Half, .ldblk b (dataField cw) = i ∧ idxField cw = b.bit.setWidth 3 := by
  unfold decodeLdblk at h
  split at h
  · cases h
  · exact ⟨_, Except.ok.inj h, eq_bit_of_halfOfIdx ‹_›⟩

theorem decodeRdblk_ok (h : decodeRdblk cw = .ok i) :
    ∃ b : Half, .rdblk b = i ∧ idxField cw = b.bit.setWidth 3 ∧ dataField cw = 0#32 := by
  unfold decodeRdblk at h
  split at h
  · cases h
  · split_ifs at h with hd
    exact ⟨_, Except.ok.inj h, eq_bit_of_halfOfIdx ‹_›, not_not.mp hd⟩

/-- R53: `decode` reads a command only off a word with that command's fields. -/
theorem hasFields_of_decode (h : decode cw = .ok i) : i.HasFields cw := by
  unfold decode at h
  split_ifs at h with hz h0 h1 h2 h3 h4 h5 h6 <;> rw [not_not] at hz
  · obtain ⟨rfl, hi, hd⟩ := decodeBare_ok h
    exact ⟨hz, h0, hi, hd⟩
  · obtain rfl := Except.ok.inj h
    exact ⟨hz, h1, rfl, rfl⟩
  · obtain ⟨d, rfl, hi, hd⟩ := decodeSetdir_ok h
    exact ⟨hz, h2, hi, hd⟩
  · obtain ⟨b, rfl, hi⟩ := decodeLdblk_ok h
    exact ⟨hz, h3, hi, rfl⟩
  · obtain ⟨rfl, hi, hd⟩ := decodeBare_ok h
    exact ⟨hz, h4, hi, hd⟩
  · obtain ⟨b, rfl, hi, hd⟩ := decodeRdblk_ok h
    exact ⟨hz, h5, hi, hd⟩
  · obtain ⟨rfl, hi, hd⟩ := decodeBare_ok h
    exact ⟨hz, h6, hi, hd⟩

theorem decode_eq_ok_iff_hasFields : decode cw = .ok i ↔ i.HasFields cw := by
  refine ⟨hasFields_of_decode, fun h => ?_⟩
  rw [← encode_eq_of_hasFields h, decode_encode]

/-- R53: the encoding is canonical. -/
theorem encode_of_decode (h : decode cw = .ok i) : encode i = cw :=
  encode_eq_of_hasFields (hasFields_of_decode h)

end Decode

/-- Settles O1: `decode` inverts `encode` on each command. -/
theorem decodeOfEncode : Obligations.DecodeOfEncode := decode_encode

/-- Settles O2: the word has the fields of the command's word, and the four fields are the whole word. -/
theorem encodeOfDecode : Obligations.EncodeOfDecode := fun _ _ => encode_of_decode

/-- Settles O6: the fields of each command's word, with the two values of a direction or a half written out. -/
theorem encodeFieldLayout : Obligations.EncodeFieldLayout := by
  intro i
  obtain ⟨hz, ho, hi, hd⟩ := hasFields_encode i
  refine ⟨zField_eq_zero_iff.mp hz, ho.trans ?_, hi.trans ?_, hd.trans ?_⟩
  · cases i <;> rfl
  · cases i with
    | nop | ldkey | start | rdst => rfl
    | setdir d => cases d <;> rfl
    | ldblk h => cases h <;> rfl
    | rdblk h => cases h <;> rfl
  · cases i <;> rfl

/-- The condition on the fields under which a word is legal, opcode by opcode as R53 gives it. -/
def LegalFields (cw : CommandWord) : Prop :=
  zField cw = 0#1
    ∧ ((opcField cw = 0x0#4 ∧ idxField cw = 0#3 ∧ dataField cw = 0#32)
      ∨ opcField cw = 0x1#4
      ∨ (opcField cw = 0x2#4 ∧ idxField cw < 2#3 ∧ dataField cw = 0#32)
      ∨ (opcField cw = 0x3#4 ∧ idxField cw < 2#3)
      ∨ (opcField cw = 0x4#4 ∧ idxField cw = 0#3 ∧ dataField cw = 0#32)
      ∨ (opcField cw = 0x5#4 ∧ idxField cw < 2#3 ∧ dataField cw = 0#32)
      ∨ (opcField cw = 0x6#4 ∧ idxField cw = 0#3 ∧ dataField cw = 0#32))

theorem lt_two_iff {k : BitVec 3} : k < 2#3 ↔ k = 0#3 ∨ k = 1#3 := by
  revert k
  decide

theorem lt_two_iff_eq_directionBit {k : BitVec 3} : k < 2#3 ↔ ∃ d : Direction, k = d.bit.setWidth 3 := by
  refine lt_two_iff.trans ⟨?_, ?_⟩
  · rintro (hk | hk)
    exacts [⟨.encrypt, hk⟩, ⟨.decrypt, hk⟩]
  · rintro ⟨_ | _, hk⟩
    exacts [.inl hk, .inr hk]

theorem lt_two_iff_eq_halfBit {k : BitVec 3} : k < 2#3 ↔ ∃ b : Half, k = b.bit.setWidth 3 := by
  refine lt_two_iff.trans ⟨?_, ?_⟩
  · rintro (hk | hk)
    exacts [⟨.left, hk⟩, ⟨.right, hk⟩]
  · rintro ⟨_ | _, hk⟩
    exacts [.inl hk, .inr hk]

section Legal
variable {cw : CommandWord}

theorem legalFields_of_hasFields {i : Instr} (h : i.HasFields cw) : LegalFields cw := by
  obtain ⟨hz, ho, hi, hd⟩ := h
  refine ⟨hz, ?_⟩
  cases i with
  | nop => exact .inl ⟨ho, hi, hd⟩
  | ldkey => exact .inr (.inl ho)
  | setdir d => exact .inr (.inr (.inl ⟨ho, lt_two_iff_eq_directionBit.mpr ⟨d, hi⟩, hd⟩))
  | ldblk b => exact .inr (.inr (.inr (.inl ⟨ho, lt_two_iff_eq_halfBit.mpr ⟨b, hi⟩⟩)))
  | start => exact .inr (.inr (.inr (.inr (.inl ⟨ho, hi, hd⟩))))
  | rdblk b => exact .inr (.inr (.inr (.inr (.inr (.inl ⟨ho, lt_two_iff_eq_halfBit.mpr ⟨b, hi⟩, hd⟩)))))
  | rdst => exact .inr (.inr (.inr (.inr (.inr (.inr ⟨ho, hi, hd⟩)))))

theorem exists_hasFields_of_legalFields (h : LegalFields cw) : ∃ i : Instr, i.HasFields cw := by
  obtain ⟨hz, ⟨ho, hi, hd⟩ | ho | ⟨ho, hi, hd⟩ | ⟨ho, hi⟩ | ⟨ho, hi, hd⟩ | ⟨ho, hi, hd⟩ | ⟨ho, hi, hd⟩⟩ := h
  · exact ⟨.nop, hz, ho, hi, hd⟩
  · exact ⟨.ldkey (idxField cw) (dataField cw), hz, ho, rfl, rfl⟩
  · obtain ⟨d, hi⟩ := lt_two_iff_eq_directionBit.mp hi
    exact ⟨.setdir d, hz, ho, hi, hd⟩
  · obtain ⟨b, hi⟩ := lt_two_iff_eq_halfBit.mp hi
    exact ⟨.ldblk b (dataField cw), hz, ho, hi, rfl⟩
  · exact ⟨.start, hz, ho, hi, hd⟩
  · obtain ⟨b, hi⟩ := lt_two_iff_eq_halfBit.mp hi
    exact ⟨.rdblk b, hz, ho, hi, hd⟩
  · exact ⟨.rdst, hz, ho, hi, hd⟩

/-- R53: no reserved opcode is legal. -/
theorem opcField_lt_seven_of_legalFields (h : LegalFields cw) : opcField cw < 7#4 := by
  obtain ⟨-, ⟨ho, -⟩ | ho | ⟨ho, -⟩ | ⟨ho, -⟩ | ⟨ho, -⟩ | ⟨ho, -⟩ | ⟨ho, -⟩⟩ := h <;> (rw [ho]; decide)

theorem exists_decode_eq_ok_iff : (∃ i, decode cw = .ok i) ↔ LegalFields cw := by
  simp only [decode_eq_ok_iff_hasFields]
  exact ⟨fun ⟨_, h⟩ => legalFields_of_hasFields h, exists_hasFields_of_legalFields⟩

theorem exists_decode_eq_error_iff : (∃ e, decode cw = .error e) ↔ ¬ LegalFields cw := by
  rw [← exists_decode_eq_ok_iff]
  cases decode cw <;> simp

theorem seven_le_or_opcode (o : BitVec 4) :
    0x7#4 ≤ o ∨ o = 0x0#4 ∨ o = 0x1#4 ∨ o = 0x2#4 ∨ o = 0x3#4 ∨ o = 0x4#4 ∨ o = 0x5#4 ∨ o = 0x6#4 := by
  bv_omega

end Legal

/-- Settles O3: R58's list is the complement of the legal words' condition, opcode by opcode. -/
theorem illegalWordsExactly : Obligations.IllegalWordsExactly := by
  intro cw
  rw [exists_decode_eq_error_iff]
  obtain h7 | ho | ho | ho | ho | ho | ho | ho := seven_le_or_opcode (opcField cw)
  · exact iff_of_true (fun h => absurd (opcField_lt_seven_of_legalFields h) (BitVec.not_lt.mpr h7)) (.inr (.inl h7))
  all_goals simp [LegalFields, zField_eq_zero_iff, ho, ← BitVec.not_lt, imp_iff_not_or]

end Sys2Proof
end

section
/-! PROOFS. The opcode map (30_encoding R52): a row's match and mask field by field, its agreement with `decode`, and the number of
the words it admits. -/

namespace Sys2Proof

/-- A mask is laid on each field by itself. The mask's and the pattern's fields are written out, so that `simp` computes them. -/
theorem and_eq_iff_fields (cw mask pattern : CommandWord) :
    cw &&& mask = pattern ↔ zField cw &&& mask.extractLsb' 35 1 = pattern.extractLsb' 35 1
      ∧ opcField cw &&& mask.extractLsb' 36 4 = pattern.extractLsb' 36 4
      ∧ idxField cw &&& mask.extractLsb' 32 3 = pattern.extractLsb' 32 3
      ∧ dataField cw &&& mask.extractLsb' 0 32 = pattern.extractLsb' 0 32 := by
  simp only [opcField, zField, idxField, dataField, ← BitVec.extractLsb'_and]
  exact ⟨fun h => by simp [h], fun ⟨hz, ho, hi, hd⟩ => commandWord_ext ho hz hi hd⟩

/-- A mask with every bit of the field set, in whatever form `simp` has computed it. -/
theorem and_of_eq_allOnes {n : Nat} {x m : BitVec n} (hm : m = BitVec.allOnes n) : x &&& m = x := by
  rw [hm, BitVec.and_allOnes]

/-- The mask `0b110` asks for an index of 0 or 1. -/
theorem and_six_eq_zero_iff (k : BitVec 3) : k &&& 6#3 = 0#3 ↔ k < 2#3 := by
  revert k
  decide

section Rows
variable {cw : CommandWord} {x y : OpcodeRow}

theorem opcField_of_admits (hx : x ∈ opcodeRows) (h : x.admits cw = true) : opcField cw = opcField x.pattern := by
  have hmask : ∀ row ∈ opcodeRows, row.mask.extractLsb' 36 4 = BitVec.allOnes 4 := by decide
  obtain ⟨-, ho, -⟩ := (and_eq_iff_fields cw x.mask x.pattern).mp (beq_iff_eq.mp h)
  rwa [hmask x hx, BitVec.and_allOnes] at ho

/-- R52: no two rows have the same opcode. -/
theorem opcodeRow_eq_of_opcField (hx : x ∈ opcodeRows) (hy : y ∈ opcodeRows) (h : opcField x.pattern = opcField y.pattern) :
    x = y := by
  have hinj : ∀ a ∈ opcodeRows, ∀ b ∈ opcodeRows, opcField a.pattern = opcField b.pattern → a = b := by decide
  exact hinj x hx y hy h

theorem opcodeRow_unique (hx : x ∈ opcodeRows) (hy : y ∈ opcodeRows) (hxcw : x.admits cw = true) (hycw : y.admits cw = true) :
    x = y :=
  opcodeRow_eq_of_opcField hx hy ((opcField_of_admits hx hxcw).symm.trans (opcField_of_admits hy hycw))

end Rows

theorem wellFormedWord_iff_legalFields (cw : CommandWord) : wellFormedWord cw = true ↔ LegalFields cw := by
  simp only [wellFormedWord, opcodeRows, OpcodeRow.admits, List.any_cons, List.any_nil, Bool.or_eq_true, Bool.or_false,
    beq_iff_eq, and_eq_iff_fields]
  simp (disch := decide) [LegalFields, and_of_eq_allOnes, and_six_eq_zero_iff, and_or_left]

theorem wellFormedWord_iff_exists_decode (cw : CommandWord) : wellFormedWord cw = true ↔ ∃ i, decode cw = .ok i :=
  (wellFormedWord_iff_legalFields cw).trans exists_decode_eq_ok_iff.symm

/-- Settles O4: a row is known by its opcode, and the rows together admit the words whose fields are legal. -/
theorem opcodeMapAgreesWithDecode : Obligations.OpcodeMapAgreesWithDecode :=
  ⟨fun _ _ _ => opcodeRow_unique, fun cw => (wellFormedWord_iff_exists_decode cw).symm⟩

/-- A direction is one bit (R13). -/
def Direction.equivBool : Direction ≃ Bool where
  toFun d := d == .decrypt
  invFun b := if b then .decrypt else .encrypt
  left_inv d := by cases d <;> rfl
  right_inv b := by cases b <;> rfl

/-- A half is named by one bit (R54). -/
def Half.equivBool : Half ≃ Bool where
  toFun h := h == .right
  invFun b := if b then .right else .left
  left_inv h := by cases h <;> rfl
  right_inv b := by cases b <;> rfl

/-- The operands of the seven commands, in the order of R52. -/
abbrev Operands := Unit ⊕ (KeyIndex × Word) ⊕ Direction ⊕ (Half × Word) ⊕ Unit ⊕ Half ⊕ Unit

/-- A command is its place in R52's map together with its operands. -/
def Instr.equivOperands : Instr ≃ Operands where
  toFun
    | .nop => .inl ()
    | .ldkey k w => .inr (.inl (k, w))
    | .setdir d => .inr (.inr (.inl d))
    | .ldblk h w => .inr (.inr (.inr (.inl (h, w))))
    | .start => .inr (.inr (.inr (.inr (.inl ()))))
    | .rdblk h => .inr (.inr (.inr (.inr (.inr (.inl h)))))
    | .rdst => .inr (.inr (.inr (.inr (.inr (.inr ())))))
  invFun
    | .inl _ => .nop
    | .inr (.inl (k, w)) => .ldkey k w
    | .inr (.inr (.inl d)) => .setdir d
    | .inr (.inr (.inr (.inl (h, w)))) => .ldblk h w
    | .inr (.inr (.inr (.inr (.inl _)))) => .start
    | .inr (.inr (.inr (.inr (.inr (.inl h))))) => .rdblk h
    | .inr (.inr (.inr (.inr (.inr (.inr _))))) => .rdst
  left_inv i := by cases i <;> rfl
  right_inv x := by rcases x with _ | _ | _ | _ | _ | _ | _ <;> rfl

theorem natCard_direction : Nat.card Direction = 2 :=
  (Nat.card_congr Direction.equivBool).trans (Nat.card_eq_fintype_card.trans Fintype.card_bool)

theorem natCard_half : Nat.card Half = 2 :=
  (Nat.card_congr Half.equivBool).trans (Nat.card_eq_fintype_card.trans Fintype.card_bool)

theorem natCard_bitVec (n : Nat) : Nat.card (BitVec n) = 2 ^ n :=
  (Nat.card_congr BitVec.equivFin.toEquiv).trans (Nat.card_fin _)

theorem natCard_instr : Nat.card Instr = 10 * 2 ^ 32 + 7 := by
  have : Finite Direction := .of_equiv _ Direction.equivBool.symm
  have : Finite Half := .of_equiv _ Half.equivBool.symm
  calc Nat.card Instr
      _ = Nat.card Operands := Nat.card_congr Instr.equivOperands
      _ = 1 + (2 ^ 3 * 2 ^ 32 + (2 + (2 * 2 ^ 32 + (1 + (2 + 1))))) := by
        simp only [Nat.card_sum, Nat.card_prod, natCard_bitVec, natCard_direction, natCard_half, Nat.card_unique]
      _ = 10 * 2 ^ 32 + 7 := by norm_num

theorem encode_wellFormed (i : Instr) : wellFormedWord (encode i) = true :=
  (wellFormedWord_iff_exists_decode _).mpr ⟨i, decode_encode i⟩

theorem encode_injective : Function.Injective encode := by
  intro i j h
  have hij : decode (encode i) = decode (encode j) := congrArg decode h
  rw [decode_encode, decode_encode] at hij
  exact Except.ok.inj hij

/-- The commands and the well-formed words are in bijection. -/
theorem encode_bijective_wellFormed :
    Function.Bijective fun i : Instr => (⟨encode i, encode_wellFormed i⟩ : Subtype fun cw => wellFormedWord cw = true) := by
  refine ⟨fun i j h => encode_injective (Subtype.ext_iff.mp h), fun ⟨cw, hcw⟩ => ?_⟩
  obtain ⟨i, hi⟩ := (wellFormedWord_iff_exists_decode cw).mp hcw
  exact ⟨i, Subtype.ext (encode_of_decode hi)⟩

/-- Settles O5: there are as many well-formed words as commands. -/
theorem numberOfLegalWords : Obligations.NumberOfLegalWords :=
  (Nat.card_eq_of_bijective _ encode_bijective_wellFormed).symm.trans natCard_instr

/-- Settles O7: `decode` is run on the closed words. -/
theorem decodesTheListedWords : Obligations.DecodesTheListedWords :=
  ⟨rfl, rfl, rfl, rfl, rfl, rfl, rfl, rfl, rfl, rfl, rfl⟩

end Sys2Proof

namespace Sys2Proof.Machine

/-- Settles O8: the response word is the code's two bits appended to the data. -/
theorem responseWordLayout : Obligations.ResponseWordLayout := by
  intro c x
  refine ⟨BitVec.extractLsb'_append_eq_right, BitVec.extractLsb'_append_eq_left.trans ?_⟩
  cases c <;> rfl

theorem runWord_of_illegal {cw : CommandWord} {e : Illegal} (h : decode cw = .error e) (s : State) :
    runWord cw s = .next (s.respond .errIllegal 0#32) := by
  rw [runWord, h]
  rfl

/-- Settles O10: the rejection adds its response to the state with the word taken off the schedule. -/
theorem stepRejectsAnIllegalWord : Obligations.StepRejectsAnIllegalWord := by
  intro s cw e hcw hdec
  exact (step_of_commandNext hcw).trans (runWord_of_illegal hdec s.popped)

end Sys2Proof.Machine
end

section
/-! PROOFS. The key schedule (40_key_schedule R72 to R74): the mirrored round `31 - i` is the complement of `i`, which turns the
straight repetitions of one direction into the reversed ones of the other. -/

namespace Sys2Proof.Machine

/-- The library's `BitVec.extractLsb'_not_of_lt` leaves out a field that reaches the top bit, as `i[4:3]` does. -/
theorem extractLsb'_not_of_le {w start len : Nat} (x : BitVec w) (h : start + len ≤ w) :
    (~~~ x).extractLsb' start len = ~~~ x.extractLsb' start len := by
  ext k hk
  have hbit : start + k < w := by omega
  simp [hbit]

section Mirror
variable (i : RoundIndex)

theorem extractLsb'_lo_mirror : (31#5 - i).extractLsb' 0 3 = 7#3 - i.extractLsb' 0 3 :=
  calc (31#5 - i).extractLsb' 0 3
    _ = (~~~ i).extractLsb' 0 3 := congrArg _ (BitVec.allOnes_sub_eq_not i)
    _ = ~~~ i.extractLsb' 0 3 := extractLsb'_not_of_le i (by decide)
    _ = 7#3 - i.extractLsb' 0 3 := (BitVec.allOnes_sub_eq_not _).symm

theorem extractLsb'_hi_mirror : (31#5 - i).extractLsb' 3 2 = 3#2 - i.extractLsb' 3 2 :=
  calc (31#5 - i).extractLsb' 3 2
    _ = (~~~ i).extractLsb' 3 2 := congrArg _ (BitVec.allOnes_sub_eq_not i)
    _ = ~~~ i.extractLsb' 3 2 := extractLsb'_not_of_le i (by decide)
    _ = 3#2 - i.extractLsb' 3 2 := (BitVec.allOnes_sub_eq_not _).symm

/-- R74: where Encrypt reverses (`hi = 3`), the mirrored round is Decrypt's straight repetition (`hi = 0`). -/
theorem ksel_decrypt_mirror : ksel .decrypt (31#5 - i) = ksel .encrypt i := by
  have hturn : 3#2 - i.extractLsb' 3 2 = 0#2 ↔ i.extractLsb' 3 2 = 3#2 := sub_eq_zero.trans eq_comm
  simp only [ksel, extractLsb'_lo_mirror, extractLsb'_hi_mirror, hturn, sub_sub_self]

theorem rk_decrypt_mirror (key : KeyWords) : rk key .decrypt (31#5 - i) = rk key .encrypt i :=
  congrArg (keyAt key) (ksel_decrypt_mirror i)

end Mirror

/-- Settles O44: the round number `31 - i` is below 32, so as an index it is the mirror of `i`. -/
theorem mirrorLaw : Obligations.MirrorLaw := by
  intro i hi
  have hmirror : BitVec.ofNat 5 (31 - i) = 31#5 - BitVec.ofNat 5 i :=
    (BitVec.ofNat_sub_ofNat_of_le 31 i hi (Nat.le_of_lt_succ hi)).symm
  rw [hmirror]
  exact ⟨(ksel_decrypt_mirror _).symm, fun key => (rk_decrypt_mirror _ key).symm⟩

/-- Settles O43: `ksel` is run on the 32 round numbers of each direction. -/
theorem keyOrders : Obligations.KeyOrders :=
  ⟨rfl, rfl⟩

end Sys2Proof.Machine
end

section
/-! PROOFS. The S-box lookup stage (41_sbox_stage R80, R81, R83, R84): a word is its eight nibbles, and `SUBST` acts on each of them
alone, so its laws are those of the eight permutations. -/

namespace Sys2Proof.Machine

/-- Two words with the same eight nibbles have the same digits. -/
theorem eq_of_nib_eq {s t : Word} (h : ∀ j, nib s j = nib t j) : s = t :=
  calc s
    _ = Message.wordOfDigits (Message.digitsOfWord s) := (Message.wordOfDigits_digitsOfWord s).symm
    _ = Message.wordOfDigits (Message.digitsOfWord t) := by
      rw [Message.digitsOfWord_eq_ofFn, Message.digitsOfWord_eq_ofFn, funext h]
    _ = t := Message.wordOfDigits_digitsOfWord t

section Append
variable {w : Nat} (x : BitVec w) (n : Nibble)

/-- The library's `BitVec.extractLsb'_append_eq_right` at width 4, a form `simp` finds in a word whose width is a numeral. -/
theorem extractLsb'_zero_append_nibble : (x ++ n).extractLsb' 0 4 = n :=
  BitVec.extractLsb'_append_eq_right

/-- A nibble put after others moves them up by four bits. -/
theorem extractLsb'_add_four_append_nibble (start : Nat) : (x ++ n).extractLsb' (start + 4) 4 = x.extractLsb' start 4 :=
  BitVec.extractLsb'_append_eq_of_le (Nat.le_add_left 4 start)

end Append

/-- R6: of eight nibbles in a row the first is nibble 0. The nibbles after nibble `j` are taken off one at a time, until it is last. -/
theorem extractLsb'_append_eight (d : Fin 8 → Nibble) (j : Fin 8) :
    (d 0 ++ d 1 ++ d 2 ++ d 3 ++ d 4 ++ d 5 ++ d 6 ++ d 7).extractLsb' (28 - 4 * j.val) 4 = d j := by
  fin_cases j <;> simp [extractLsb'_add_four_append_nibble, extractLsb'_zero_append_nibble]

@[simp] theorem nib_substWord (S : SBoxBank) (s : Word) (j : Fin 8) : nib (substWord S s) j = S j (nib s j) :=
  extractLsb'_append_eight (fun i => S i (nib s i)) j

/-- R83: the nibbles do not interact, so a bank undoes another where each of its tables does. -/
theorem substWord_leftInverse {S T : SBoxBank} (h : ∀ j, Function.LeftInverse (T j) (S j)) :
    Function.LeftInverse (substWord T) (substWord S) := fun s =>
  eq_of_nib_eq fun j => by rw [nib_substWord, nib_substWord, h j]

/-- Settles O45: the statement is `nib_substWord` with `nib` written out. -/
theorem substActsOnEachNibble : Obligations.SubstActsOnEachNibble :=
  nib_substWord

/-- Settles O46: each inverse table undoes its table on both sides, and a map with a two-sided inverse is a bijection. -/
theorem substIsABijection : Obligations.SubstIsABijection := by
  intro S
  have hleft := substWord_leftInverse fun j => (S j).leftInverse_symm
  have hright := substWord_leftInverse fun j => (S j).rightInverse_symm
  exact ⟨⟨hleft.injective, hright.surjective⟩, fun s => ⟨hleft s, hright s⟩⟩

/-- Settles O47: an identity table leaves its nibble. -/
theorem substOfTheIdentityTable : Obligations.SubstOfTheIdentityTable := by
  intro S hid s
  exact eq_of_nib_eq fun j => (nib_substWord S s j).trans (hid j _)

end Sys2Proof.Machine
end

section
/-! PROOFS. The round function (42_round_function R93, R95, R96): `G` is a composition of three bijections, and a round of two
involutions, whatever the tables are. -/

namespace Sys2Proof.Machine

/-- R91: every bit of a word is a bit of its rotation. -/
theorem rol11_injective : Function.Injective rol11 := fun x y h =>
  BitVec.eq_of_getLsbD_eq fun i hi =>
    calc x.getLsbD i
      _ = (rol11 x).getLsbD ((i + 11) % 32) := (getLsbD_rol32 x 11 i hi).symm
      _ = (rol11 y).getLsbD ((i + 11) % 32) := by rw [h]
      _ = y.getLsbD i := getLsbD_rol32 y 11 i hi

theorem rol11_bijective : Function.Bijective rol11 :=
  Finite.injective_iff_bijective.mp rol11_injective

section Keyed
variable (S : SBoxBank) (k : Word)

/-- R93: the order of the three stages shows in where bit `i` of the substituted sum comes to stand. -/
theorem getLsbD_keyedG (l : Word) (i : Nat) (hi : i < 32) :
    (keyedG S l k).getLsbD ((i + 11) % 32) = (substWord S (l + k)).getLsbD i :=
  getLsbD_rol32 (substWord S (l + k)) 11 i hi

/-- R95: the adder, the S-box stage and the rotator are each a bijection. -/
theorem keyedG_bijective : Function.Bijective fun l => keyedG S l k :=
  rol11_bijective.comp ((substIsABijection S).1.comp (Equiv.addRight k).bijective)

/-- R95: the operands meet in the adder only. -/
theorem keyedG_comm (l : Word) : keyedG S l k = keyedG S k l := by
  rw [keyedG, keyedG, add32, add32, BitVec.add_comm]

/-- `MIX` of R96: the half `b` takes in the keyed function of the half `a`, which stays. -/
def mix (p : Word × Word) : Word × Word := (p.1, p.2 ^^^ keyedG S p.1 k)

theorem mix_involutive : Function.Involutive (mix S k) := fun p =>
  Prod.ext rfl (xor_cancel_right p.2 (keyedG S p.1 k))

/-- R96: `ROUND` is `SWAP` after `MIX`. -/
theorem feistelRound_eq_swap_mix (p : Word × Word) : feistelRound S p.1 p.2 k = (mix S k p).swap :=
  Prod.ext (BitVec.xor_comm _ _) rfl

theorem feistelRound_bijective : Function.Bijective fun p : Word × Word => feistelRound S p.1 p.2 k := by
  have hcomp : (fun p : Word × Word => feistelRound S p.1 p.2 k) = Prod.swap ∘ mix S k :=
    funext (feistelRound_eq_swap_mix S k)
  rw [hcomp]
  exact Prod.swap_bijective.comp (mix_involutive S k).bijective

/-- R96: the old Left stands in the new Right, so its keyed function can be taken out of the new Left again. -/
theorem feistelRound_recovers (l r : Word) :
    (feistelRound S l r k).2 = l ∧ (feistelRound S l r k).1 ^^^ keyedG S (feistelRound S l r k).2 k = r :=
  ⟨rfl, xor_xor_cancel_comm (keyedG S l k) r⟩

end Keyed

/-- Settles O49: the bits of `G` are those of the rotator, and its bijection is that of its three stages. -/
theorem keyedFunctionIsABijection : Obligations.KeyedFunctionIsABijection := fun S k =>
  ⟨getLsbD_keyedG S k, keyedG_bijective S k, keyedG_comm S k⟩

/-- Settles O50: the equations of R96 leave `swap` and `mix` no choice but `Prod.swap` and the `mix` above. -/
theorem roundIsInvertible : Obligations.RoundIsInvertible := by
  intro S k
  refine ⟨feistelRound_bijective S k, feistelRound_recovers S k, fun swapMap mixMap hswap hmix => ?_⟩
  obtain rfl : swapMap = Prod.swap := funext fun p => hswap p.1 p.2
  obtain rfl : mixMap = mix S k := funext fun p => hmix p.1 p.2
  exact ⟨feistelRound_eq_swap_mix S k, mix_involutive S k, Prod.swap_swap⟩

end Sys2Proof.Machine
end

section
/-! PROOFS. The loop controller's operations (43_loop_controller R101 to R103): `START` while idle, and the engine's turn, with an
equation for each case. -/

namespace Sys2Proof.Machine

section Controller
variable {s : State}

/-- R101: while idle the key alone decides whether an operation begins. -/
theorem exec_start_of_idle (hidle : s.busy = false) :
    exec .start s = if s.keyOk then accept 0#32 s.beginOperation else reject .errNoKey s :=
  whenIdle_of_idle hidle _

theorem exec_start_of_keyed (hidle : s.busy = false) (hkv : s.kv = 0xFF#8) :
    exec .start s = .next (s.beginOperation.respond .ok 0#32) :=
  (exec_start_of_idle hidle).trans (if_pos ((keyOk_iff s).mpr hkv))

theorem exec_start_of_keyless (hidle : s.busy = false) (hkv : s.kv ≠ 0xFF#8) :
    exec .start s = .next (s.respond .errNoKey 0#32) :=
  (exec_start_of_idle hidle).trans (if_neg fun hkey => hkv ((keyOk_iff s).mp hkey))

theorem engineStep_of_running (S : SBoxBank) (hbusy : s.busy = true) (hrnd : s.rnd < 32#6) :
    s.engineStep S = s.engineRound S := by
  simp [State.engineStep, State.roundEnabled, hbusy, hrnd]

theorem engineStep_of_finishing (S : SBoxBank) (hbusy : s.busy = true) (hrnd : s.rnd = 32#6) :
    s.engineStep S = s.engineFinal := by
  simp [State.engineStep, State.roundEnabled, State.finalEnabled, hbusy, hrnd]

theorem engineStep_of_disabled (S : SBoxBank) (hdisabled : s.busy = false ∨ 32#6 < s.rnd) : s.engineStep S = s := by
  rcases hdisabled with hidle | hrnd
  · simp [State.engineStep, State.roundEnabled, State.finalEnabled, hidle]
  · have hround : ¬ s.rnd < 32#6 := by bv_omega
    have hfinal : s.rnd ≠ 32#6 := by bv_omega
    simp [State.engineStep, State.roundEnabled, State.finalEnabled, hround, hfinal]

theorem step_of_engineNext (hturn : s.engineNext) : step s = .next (s.popped.engineStep Config.sbox) := by
  rw [step, nextMove_of_engineNext hturn, runMove]

/-- R102 with R94 and R71 written out: the model's round joins its two operands in the other order. -/
theorem engineRound_eq (S : SBoxBank) (s : State) :
    s.engineRound S = { s with
      l := s.r ^^^ keyedG S s.l (s.keyWord (ksel s.dir (s.rnd.setWidth 5)))
      r := s.l
      rnd := s.rnd + 1#6 } := by
  rw [BitVec.xor_comm]
  rfl

end Controller

/-- Settles O19: the busy check and the key check both pass. -/
theorem startBeginsAnOperation : Obligations.StartBeginsAnOperation :=
  fun _ hidle hkv => exec_start_of_keyed hidle hkv

/-- Settles O20: the busy check passes and the key check does not. -/
theorem startWithoutKeyIsRejected : Obligations.StartWithoutKeyIsRejected :=
  fun _ hidle hkv => exec_start_of_keyless hidle hkv

/-- Settles O11: the turn is the engine's step on the state with the schedule popped, in each of its three cases. -/
theorem engineStepEffect : Obligations.EngineStepEffect := by
  intro s hturn
  rw [step_of_engineNext hturn]
  refine ⟨fun hbusy hrnd => ?_, fun hbusy hrnd => ?_, fun hdisabled => ?_⟩
  · rw [engineStep_of_running (s := s.popped) _ hbusy hrnd, engineRound_eq]
    rfl
  · rw [engineStep_of_finishing (s := s.popped) _ hbusy hrnd]
    rfl
  · rw [engineStep_of_disabled (s := s.popped) _ hdisabled]
    rfl

end Sys2Proof.Machine
end

section
/-! PROOFS. The phases (43_loop_controller R100): each is a condition on `BUSY` and `RND`, and the effects of a step move between
them in the ways of the rule. -/

namespace Sys2Proof.Machine

section Phases
variable {s t : State}

theorem phase_eq_idle_iff : s.phase = .idle ↔ s.busy = false := by
  unfold State.phase
  split_ifs <;> simp_all

theorem phase_eq_running_iff : s.phase = .running ↔ s.busy = true ∧ s.rnd < 32#6 := by
  unfold State.phase
  split_ifs <;> simp_all

theorem phase_eq_finishing_iff : s.phase = .finishing ↔ s.busy = true ∧ ¬ s.rnd < 32#6 := by
  unfold State.phase
  split_ifs <;> simp_all

theorem phase_applyReset : s.applyReset.phase = .idle :=
  phase_eq_idle_iff.mpr rfl

theorem phase_after_idle (h : step s = .next t) (hphase : s.phase = .idle) :
    t.phase = .idle ∨ (t.phase = .running ∧ s.kv = 0xFF#8 ∧ ∃ cw, s.commandNext cw ∧ decode cw = .ok .start) := by
  have hidle := phase_eq_idle_iff.mp hphase
  cases stepEffect_of_step h with
  | start hcw hdec _ hkv => exact .inr ⟨phase_eq_running_iff.mpr ⟨rfl, by simp⟩, hkv, _, hcw, hdec⟩
  | reset => exact .inl phase_applyReset
  | round _ hbusy | final _ hbusy => simp [hidle] at hbusy
  | answer | ldkey | setdir | ldblk | still => exact .inl (phase_eq_idle_iff.mpr (by simpa using hidle))

theorem phase_after_running (h : step s = .next t) (hphase : s.phase = .running) :
    (t.phase = .running ∧ ¬ (s.engineNext ∧ s.rnd = 31#6)) ∨ (t.phase = .finishing ∧ s.engineNext ∧ s.rnd = 31#6)
      ∨ (t.phase = .idle ∧ s.resetNext) := by
  obtain ⟨hbusy, hrnd⟩ := phase_eq_running_iff.mp hphase
  cases stepEffect_of_step h with
  | answer hcw => exact .inl ⟨hphase, fun hturn => (commandNext_excludes hcw).1 hturn.1⟩
  | round hturn =>
    by_cases hlast : s.rnd = 31#6
    · refine .inr (.inl ⟨phase_eq_finishing_iff.mpr ⟨hbusy, ?_⟩, hturn, hlast⟩)
      simp [hlast]
    · refine .inl ⟨phase_eq_running_iff.mpr ⟨hbusy, ?_⟩, fun hfinal => hlast hfinal.2⟩
      rw [engineRound_rnd, popped_rnd]
      bv_omega
  | reset hturn => exact .inr (.inr ⟨phase_applyReset, hturn⟩)
  | final _ _ h32 => simp [h32] at hrnd
  | still _ hdisabled =>
    have hbeyond : 32#6 < s.rnd := hdisabled.resolve_left (by simp [hbusy])
    bv_omega
  | ldkey _ _ hidle | setdir _ _ hidle | ldblk _ _ hidle | start _ _ hidle => simp [hbusy] at hidle

/-- R23 (a) is needed here: above 32 the engine's turn would leave the phase as it is. -/
theorem phase_after_finishing (hinv : s.Inv) (h : step s = .next t) (hphase : s.phase = .finishing) :
    (t.phase = .finishing ∧ ¬ s.engineNext) ∨ (t.phase = .idle ∧ (s.engineNext ∨ s.resetNext)) := by
  obtain ⟨hbusy, hrnd⟩ := phase_eq_finishing_iff.mp hphase
  obtain ⟨hle, -⟩ := hinv
  cases stepEffect_of_step h with
  | answer hcw => exact .inl ⟨hphase, (commandNext_excludes hcw).1⟩
  | final hturn => exact .inr ⟨phase_eq_idle_iff.mpr rfl, .inl hturn⟩
  | reset hturn => exact .inr ⟨phase_applyReset, .inr hturn⟩
  | round _ _ hlt => exact absurd hlt hrnd
  | still _ hdisabled =>
    have hbeyond : 32#6 < s.rnd := hdisabled.resolve_left (by simp [hbusy])
    bv_omega
  | ldkey _ _ hidle | setdir _ _ hidle | ldblk _ _ hidle | start _ _ hidle => simp [hbusy] at hidle

end Phases

/-- Settles O42: from each phase, the effects of a step that are possible there. -/
theorem phaseTransitions : Obligations.PhaseTransitions :=
  fun _ _ hinv h => ⟨phase_after_idle h, phase_after_running h, phase_after_finishing hinv h⟩

end Sys2Proof.Machine
end

section
/-! PROOFS. The block function (43_loop_controller R104, R106, R112): a run of rounds backwards through the halves exchanged takes the
rounds of a run back, where its round keys come in the opposite order. -/

namespace Sys2Proof.Machine

section Crypt
variable {S : SBoxBank} {key : KeyWords} {d d' : Direction}

theorem cryptRounds_succ (b : Word × Word) (n : Nat) :
    cryptRounds S key d b (n + 1) = (mix S (rk key d (BitVec.ofNat 5 n)) (cryptRounds S key d b n)).swap :=
  feistelRound_eq_swap_mix S _ _

theorem crypt_eq_swap (b : Word × Word) : crypt S key d b = (cryptRounds S key d b 32).swap := rfl

/-- The rounds look at the direction through their keys only. -/
theorem cryptRounds_congr (hrk : ∀ i, rk key d i = rk key d' i) (b : Word × Word) (n : Nat) :
    cryptRounds S key d b n = cryptRounds S key d' b n := by
  induction n with
  | zero => rfl
  | succ n ih => rw [cryptRounds_succ, cryptRounds_succ, hrk, ih]

theorem crypt_congr (hrk : ∀ i, rk key d i = rk key d' i) (b : Word × Word) : crypt S key d b = crypt S key d' b := by
  rw [crypt_eq_swap, crypt_eq_swap, cryptRounds_congr hrk]

/-- R106: `n` rounds with the keys in the opposite order lead from the result back to what stood before the last `n` rounds, the
halves exchanged; each of them meets the `mix` of the round it takes back. -/
theorem cryptRounds_crypt (hrk : ∀ i, rk key d' (31#5 - i) = rk key d i) (b : Word × Word) {n : Nat} (hn : n ≤ 32) :
    cryptRounds S key d' (crypt S key d b) n = (cryptRounds S key d b (32 - n)).swap := by
  induction n with
  | zero => rfl
  | succ n ih =>
    have hround : 32 - n = 31 - n + 1 := by omega
    have hkey : rk key d' (BitVec.ofNat 5 n) = rk key d (BitVec.ofNat 5 (31 - n)) := by
      have hmirror : 31#5 - BitVec.ofNat 5 (31 - n) = BitVec.ofNat 5 n := by
        rw [BitVec.ofNat_sub_ofNat_of_le 31 (31 - n) (by omega) (by omega)]
        congr 1
        omega
      rw [← hmirror, hrk]
    rw [cryptRounds_succ, ih (Nat.le_of_succ_le hn), hround, cryptRounds_succ, Prod.swap_swap, hkey, mix_involutive,
      Nat.add_comm n 1, ← Nat.sub_sub]

theorem crypt_leftInverse (hrk : ∀ i, rk key d' (31#5 - i) = rk key d i) :
    Function.LeftInverse (crypt S key d') (crypt S key d) := fun b => by
  rw [crypt_eq_swap, cryptRounds_crypt hrk b le_rfl, Prod.swap_swap]
  rfl

/-- R74 read the other way. -/
theorem rk_encrypt_mirror (key : KeyWords) (i : RoundIndex) : rk key .encrypt (31#5 - i) = rk key .decrypt i := by
  rw [← rk_decrypt_mirror, sub_sub_self]

end Crypt

/-- Settles O51: by the mirror law each direction has the round keys of the other in the opposite order. -/
theorem cryptRoundTrip : Obligations.CryptRoundTrip := fun _ key b =>
  ⟨crypt_leftInverse (fun i => rk_decrypt_mirror i key) b, crypt_leftInverse (rk_encrypt_mirror key) b⟩

/-- R72, R73: in every round the two directions name the same key word or two that a palindromic key makes equal. -/
theorem ksel_decrypt_eq_or_mirror (i : RoundIndex) :
    ksel .decrypt i = ksel .encrypt i ∨ ksel .decrypt i = 7#3 - ksel .encrypt i := by
  by_cases hfirst : i.extractLsb' 3 2 = 0#2
  · simp [ksel, hfirst]
  · by_cases hlast : i.extractLsb' 3 2 = 3#2 <;> simp [ksel, hfirst, hlast]

theorem rk_eq_of_palindromic {key : KeyWords} (hkey : ∀ j : KeyIndex, keyAt key j = keyAt key (7#3 - j)) (i : RoundIndex) :
    rk key .encrypt i = rk key .decrypt i := by
  rcases ksel_decrypt_eq_or_mirror i with h | h
  · rw [rk, rk, h]
  · rw [rk, rk, h, ← hkey]

/-- Settles O52: equal round keys make the directions equal, so that the round trip goes through one function twice; a key with all
words equal is palindromic. -/
theorem palindromicKeys : Obligations.PalindromicKeys := by
  refine ⟨fun key hkey => ⟨rk_eq_of_palindromic hkey, fun S b => ?_⟩, ?_⟩
  · have hsame : ∀ x, crypt S key .encrypt x = crypt S key .decrypt x := crypt_congr (rk_eq_of_palindromic hkey)
    obtain ⟨hdec, henc⟩ := cryptRoundTrip S key b
    exact ⟨hsame b, (hsame _).trans hdec, (hsame _).symm.trans henc⟩
  · rintro key (hall | hall) j <;> rw [hall, hall]

end Sys2Proof.Machine
end

section
/-! PROOFS. An operation on the machine (43_loop_controller R105, R107): what `InOperation` says of the registers holds along every
schedule without a reset, since a word is only answered while busy and the engine's turn is the next round. -/

namespace Sys2Proof.Machine

/-- Two runs one after the other. -/
theorem runSteps_add {m : Nat} {s u : State} (h : runSteps m s = .next u) (n : Nat) : runSteps (m + n) s = runSteps n u := by
  induction m generalizing s with
  | zero =>
    cases h
    rw [Nat.zero_add]
  | succ m ih =>
    cases hv : step s with
    | next v =>
      rw [runSteps_succ hv] at h
      rw [Nat.add_right_comm, runSteps_succ hv, ih h]
    | fault r => cases r
    | refused r =>
      have hcore : Sys2Proof.core.step s = .refused r := hv
      simp [runSteps, Host.Core.run, hcore] at h

theorem runSteps_one {s t : State} (h : step s = .next t) : runSteps 1 s = .next t :=
  runSteps_succ h

/-- R120: while busy a command is answered and does nothing else. -/
theorem exec_of_busy {s : State} (hbusy : s.busy = true) (i : Instr) : ∃ c x, exec i s = .next (s.respond c x) := by
  cases i with
  | nop | rdst => exact ⟨_, _, rfl⟩
  | ldkey | setdir | ldblk | start | rdblk => exact ⟨_, _, whenIdle_of_busy hbusy _⟩

theorem runWord_of_busy {s : State} (hbusy : s.busy = true) (cw : CommandWord) : ∃ c x, runWord cw s = .next (s.respond c x) := by
  cases hdec : decode cw with
  | ok i => simpa only [runWord_of_decode hdec] using exec_of_busy hbusy i
  | error e => exact ⟨_, _, runWord_of_illegal hdec s⟩

theorem commandNext_of_cons {s : State} {cw : CommandWord} {ms : List Move} (hs : s.schedule = .command cw :: ms) :
    s.commandNext cw := by
  rw [State.commandNext, hs, List.head?_cons]

/-- The word of a command that comes next is run on the state with the schedule popped. -/
theorem step_of_encode {s : State} {i : Instr} (hnext : s.commandNext (encode i)) : step s = exec i s.popped :=
  stepRunsTheDecodedCommand s (encode i) i hnext (decode_encode i)

/-- With every key word loaded, `START` leads to a state that meets R23, whatever stood in `RND` and `DONE` before. -/
theorem inv_beginOperation_of_keyed {s : State} (hkv : s.kv = 0xFF#8) : s.beginOperation.Inv := by
  have hloaded : ∀ i : KeyIndex, (0xFF#8).getLsbD i.toNat = true := by decide
  refine ⟨by simp, by simp, by simp [hkv], fun i hi => ?_⟩
  rw [beginOperation_kv, hkv, hloaded] at hi
  cases hi

section Operation
variable {S : SBoxBank} {key : KeyWords} {d : Direction} {b : Word × Word} {k : Nat} {s : State}

theorem InOperation.popped (h : InOperation S key d b k s) : InOperation S key d b k s.popped :=
  ⟨h.key_eq, h.kv_eq, h.dir_eq, h.running, h.finished⟩

theorem inOperation_beginOperation (S : SBoxBank) (hkv : s.kv = 0xFF#8) :
    InOperation S s.key s.dir (s.l, s.r) 0 s.beginOperation :=
  ⟨rfl, hkv, rfl, fun _ => ⟨rfl, rfl, rfl⟩, fun h => absurd h (by decide)⟩

/-- One move of an operation that is not over: a round for the engine's turn, none for a word. -/
theorem InOperation.step_move (h : InOperation Config.sbox key d b k s) (hk : k ≤ 32) {m : Move} {ms : List Move}
    (hs : s.schedule = m :: ms) (hm : ∀ p, m ≠ .reset p) :
    ∃ u, step s = .next u ∧ u.schedule = ms ∧ InOperation Config.sbox key d b (k + [m].count .engine) u := by
  have hhead : s.schedule.head? = some m := by rw [hs, List.head?_cons]
  have htail : s.schedule.tail = ms := by rw [hs, List.tail_cons]
  obtain ⟨hbusy, -, -⟩ := h.running hk
  cases m with
  | command cw =>
    obtain ⟨c, x, hword⟩ := runWord_of_busy (s := s.popped) hbusy cw
    exact ⟨_, (step_of_commandNext hhead).trans hword, htail, h.popped.respond c x⟩
  | engine =>
    obtain ⟨-, -, -, hsched, -⟩ := engineStep_frame Config.sbox s.popped
    refine ⟨_, step_of_engineNext (.inr hhead), hsched.trans htail, ?_⟩
    have hround := h.popped.engineStep
    rwa [Nat.min_eq_left (Nat.succ_le_succ hk)] at hround
  | reset p => exact absurd rfl (hm p)

/-- R105 (a), (b): as long as the engine has had at most 32 turns. -/
theorem InOperation.run_moves {ms rest : List Move} (h : InOperation Config.sbox key d b k s)
    (hk : k + ms.count .engine ≤ 32) (hms : ∀ p, Move.reset p ∉ ms) (hs : s.schedule = ms ++ rest) :
    ∃ u, runSteps ms.length s = .next u ∧ u.schedule = rest ∧ InOperation Config.sbox key d b (k + ms.count .engine) u := by
  induction ms generalizing s k with
  | nil => exact ⟨s, rfl, hs, h⟩
  | cons m ms ih =>
    have hcount : k + (m :: ms).count .engine = k + [m].count .engine + ms.count .engine := by
      rw [← List.singleton_append, List.count_append, Nat.add_assoc]
    rw [hcount] at hk ⊢
    obtain ⟨v, hv, hvs, hvop⟩ := h.step_move (by omega) hs fun p e => hms p (e ▸ List.mem_cons_self)
    obtain ⟨u, hu, hus, huop⟩ := ih hvop hk (fun p hp => hms p (List.mem_cons_of_mem m hp)) hvs
    exact ⟨u, (runSteps_succ hv).trans hu, hus, huop⟩

/-- R103: the engine's turn after 32 rounds ends the operation. -/
theorem InOperation.step_final (h : InOperation Config.sbox key d b 32 s) {rest : List Move} (hs : s.schedule = .engine :: rest) :
    ∃ t, step s = .next t ∧ (t.l, t.r) = crypt Config.sbox key d b
      ∧ t.busy = false ∧ t.done = true ∧ t.rnd = 32#6 ∧ t.key = key ∧ t.kv = 0xFF#8 ∧ t.dir = d ∧ t.schedule = rest := by
  obtain ⟨hbusy, hrnd, hlr⟩ := h.running le_rfl
  have hrnd' : s.rnd = 32#6 := BitVec.eq_of_toNat_eq hrnd
  refine ⟨s.popped.engineFinal, ?_, ?_, rfl, rfl, hrnd', h.key_eq, h.kv_eq, h.dir_eq, ?_⟩
  · rw [step_of_engineNext (.inr (by rw [hs, List.head?_cons])), engineStep_of_finishing (s := s.popped) _ hbusy hrnd']
  · rw [crypt_eq_swap, ← hlr]
    rfl
  · rw [engineFinal_schedule, popped_schedule, hs, List.tail_cons]

end Operation

/-- R101: an accepted `START` that is scheduled begins an operation, in a state that meets R23. -/
theorem step_start {s : State} {ms : List Move} (hidle : s.busy = false) (hkv : s.kv = 0xFF#8)
    (hs : s.schedule = .command (encode .start) :: ms) :
    ∃ v, step s = .next v ∧ v.schedule = ms ∧ v.Inv ∧ InOperation Config.sbox s.key s.dir (s.l, s.r) 0 v :=
  ⟨s.popped.beginOperation.respond .ok 0#32,
    (step_of_encode (commandNext_of_cons hs)).trans (exec_start_of_keyed (s := s.popped) hidle hkv),
    by simp [hs], (inv_beginOperation_of_keyed (s := s.popped) hkv).respond _ _,
    (inOperation_beginOperation Config.sbox (s := s.popped) hkv).respond _ _⟩

/-- Settles O53: along each part of the schedule the operation is in as many rounds as the engine had turns, and `DONE` is 0 by R23;
the turn after 32 of them is the last. -/
theorem operationComputesCrypt : Obligations.OperationComputesCrypt := by
  intro s ms rest hidle hkv hnoreset hcount hs
  obtain ⟨v, hv, hvs, hinv, hop⟩ := step_start hidle hkv hs
  constructor
  · intro n hn
    have hle : 0 + (ms.take n).count .engine ≤ 32 := by
      rw [Nat.zero_add, ← hcount]
      exact (List.take_sublist n ms).count_le _
    have hsplit : v.schedule = ms.take n ++ (ms.drop n ++ .engine :: rest) := by
      rw [hvs, ← List.append_assoc, List.take_append_drop]
    obtain ⟨u, hu, -, huop⟩ := hop.run_moves hle (fun p hp => hnoreset p (List.mem_of_mem_take hp)) hsplit
    obtain ⟨hbusy, hrnd, hlr⟩ := huop.running hle
    obtain ⟨-, -, hbusyinv, -⟩ : u.Inv := runSteps_keeps everyStepKeepsTheInvariants _ v u hinv hu
    rw [List.length_take_of_le hn] at hu
    rw [Nat.zero_add] at hrnd hlr
    exact ⟨u, (runSteps_succ hv).trans hu, hbusy, (hbusyinv hbusy).2, hrnd, hlr, huop.key_eq, huop.kv_eq.trans hkv.symm, huop.dir_eq⟩
  · obtain ⟨u, hu, hus, huop⟩ := hop.run_moves (by omega) hnoreset hvs
    rw [hcount] at huop
    obtain ⟨t, ht, hlr, hbusy, hdone, hrnd, hkey, htkv, hdir, hts⟩ := huop.step_final hus
    refine ⟨t, ?_, hlr, hbusy, hdone, hrnd, hkey, htkv.trans hkv.symm, hdir, hts⟩
    rw [runSteps_succ hv, runSteps_add hu, runSteps_one ht]

theorem exec_setdir_of_idle {s : State} (hidle : s.busy = false) (d : Direction) :
    exec (.setdir d) s = .next ({ s with dir := d }.respond .ok 0#32) :=
  whenIdle_of_idle hidle _

/-- R123: a scheduled `SETDIR` while idle changes the direction alone before the next move. -/
theorem step_setdir {s : State} {d : Direction} {ms : List Move} (hidle : s.busy = false)
    (hs : s.schedule = .command (encode (.setdir d)) :: ms) :
    step s = .next ({ s.popped with dir := d }.respond .ok 0#32) :=
  (step_of_encode (commandNext_of_cons hs)).trans (exec_setdir_of_idle (s := s.popped) hidle d)

/-- R105 for the engine's 33 turns with no word in between. -/
theorem runSteps_operation {s : State} {rest : List Move} (hidle : s.busy = false) (hkv : s.kv = 0xFF#8)
    (hs : s.schedule = .command (encode .start) :: (List.replicate 33 .engine ++ rest)) :
    ∃ t, runSteps 34 s = .next t ∧ (t.l, t.r) = crypt Config.sbox s.key s.dir (s.l, s.r)
      ∧ t.busy = false ∧ t.done = true ∧ t.rnd = 32#6 ∧ t.key = s.key ∧ t.kv = s.kv ∧ t.dir = s.dir ∧ t.schedule = rest := by
  have hsplit : s.schedule = .command (encode .start) :: (List.replicate 32 .engine ++ .engine :: rest) := by
    rw [hs, List.replicate_succ', List.append_assoc, List.singleton_append]
  exact (operationComputesCrypt s (List.replicate 32 .engine) rest hidle hkv (by simp) List.count_replicate_self hsplit).2

/-- Settles O54: two operations with a `SETDIR` between them, the second on what the first left, and `crypt` undone by `crypt`. -/
theorem chainedDecryptRestoresTheBlock : Obligations.ChainedDecryptRestoresTheBlock := by
  intro s hidle hkv hdir hs
  obtain ⟨t, ht, hlr, htidle, -, -, htkey, htkv, -, hts⟩ := runSteps_operation hidle hkv (by rw [hs, List.append_assoc])
  have hset := step_setdir htidle hts
  obtain ⟨u, hu, hulr, hubusy, hudone, -, -, -, hudir, hus⟩ :=
    runSteps_operation (s := { t.popped with dir := .decrypt }.respond .ok 0#32) (rest := []) htidle (htkv.trans hkv)
      (by simp [hts])
  have hblock : (u.l, u.r) = (s.l, s.r) :=
    calc (u.l, u.r)
      _ = crypt Config.sbox t.key .decrypt (t.l, t.r) := hulr
      _ = crypt Config.sbox s.key .decrypt (crypt Config.sbox s.key .encrypt (s.l, s.r)) := by rw [htkey, hlr, hdir]
      _ = (s.l, s.r) := (cryptRoundTrip Config.sbox s.key (s.l, s.r)).1
  obtain ⟨hl, hr⟩ := Prod.mk.inj hblock
  refine ⟨u, ?_, hl, hr, hubusy, hudone, hudir, hus⟩
  calc runSteps 69 s
    _ = runSteps 35 t := runSteps_add ht 35
    _ = runSteps 34 _ := runSteps_succ hset
    _ = .next u := hu

end Sys2Proof.Machine
end

section
/-! PROOFS. The host commands (44_host_commands R120 to R125): while idle an equation for each of them, while busy one answer that is
no function of the running block. -/

namespace Sys2Proof.Machine

theorem setHalf_eq_ite (s : State) (h : Half) (w : Word) :
    s.setHalf h w = { s with l := if h = .left then w else s.l, r := if h = .right then w else s.r } := by
  cases h <;> rfl

theorem half_eq_ite (s : State) (h : Half) : s.half h = if h = .left then s.l else s.r := by
  cases h <;> rfl

section Idle
variable {s : State}

theorem exec_ldkey_of_idle (hidle : s.busy = false) (i : KeyIndex) (w : Word) :
    exec (.ldkey i w) s = .next (((s.setKeyWord i w).markKeyLoaded i).respond .ok 0#32) :=
  whenIdle_of_idle hidle _

theorem exec_ldblk_of_idle (hidle : s.busy = false) (h : Half) (w : Word) :
    exec (.ldblk h w) s = .next ({ s.setHalf h w with done := false }.respond .ok 0#32) :=
  whenIdle_of_idle hidle _

theorem exec_rdblk_of_idle (hidle : s.busy = false) (h : Half) :
    exec (.rdblk h) s = .next (s.respond .ok (s.half h)) :=
  whenIdle_of_idle hidle _

end Idle

/-- Settles O15: `NOP` passes no busy check and writes no register. -/
theorem nopAnswersOk : Obligations.NopAnswersOk :=
  fun _ => rfl

/-- Settles O16: the key word and its flag are read back as written, and neither write reaches another register. -/
theorem ldkeyLoadsOneKeyWord : Obligations.LdkeyLoadsOneKeyWord := by
  intro s i w hidle
  refine ⟨_, exec_ldkey_of_idle hidle i w, fun j => keyWord_setKeyWord s i j w, fun j => ?_, rfl, rfl, rfl, rfl, rfl, rfl, rfl, rfl⟩
  rw [respond_kv, kv_markKeyLoaded, setKeyWord_kv]
  by_cases hj : j = i <;> simp [hj]

/-- Settles O17: the busy check passes. -/
theorem setdirSetsTheDirection : Obligations.SetdirSetsTheDirection :=
  fun _ d hidle => exec_setdir_of_idle hidle d

/-- Settles O18: the busy check passes, and the write is the one of the named half. -/
theorem ldblkLoadsOneHalf : Obligations.LdblkLoadsOneHalf := by
  intro s h w hidle
  rw [exec_ldblk_of_idle hidle, setHalf_eq_ite]
  rfl

/-- Settles O21: the busy check passes, and nothing looks at `DONE`. -/
theorem rdblkAnswersOneHalf : Obligations.RdblkAnswersOneHalf := by
  intro s h hidle
  rw [exec_rdblk_of_idle hidle, half_eq_ite]
  rfl

/-- Settles O23: the five commands are those that pass through the busy check. -/
theorem busyRejectsTheOtherFive : Obligations.BusyRejectsTheOtherFive := by
  intro s i hbusy hnop hrdst
  cases i with
  | nop => exact absurd rfl hnop
  | rdst => exact absurd rfl hrdst
  | ldkey | setdir | ldblk | start | rdblk => exact whenIdle_of_busy hbusy _

/-- Settles O28: while busy a word is answered, in the state with the schedule popped, and does nothing else. -/
theorem commandsChangeNothingWhileBusy : Obligations.CommandsChangeNothingWhileBusy := by
  intro s t cw hbusy hcw h
  obtain ⟨c, x, hword⟩ := runWord_of_busy (s := s.popped) hbusy cw
  obtain rfl : s.popped.respond c x = t := Host.Outcome.next.inj (hword.symm.trans ((step_of_commandNext hcw).symm.trans h))
  rfl

/-- `s` with another block in `L` and `R`. -/
def State.withBlock (s : State) (b : Word × Word) : State := { s with l := b.1, r := b.2 }

/-- R125: while busy `NOP` answers a constant, `RDST` a status word that the block is no part of, and the five other commands `ERR_BUSY`. -/
theorem exec_withBlock_of_busy {s : State} (hbusy : s.busy = true) (i : Instr) (b : Word × Word) :
    ∃ c x, exec i s = .next (s.respond c x) ∧ exec i (s.withBlock b) = .next ((s.withBlock b).respond c x) := by
  rcases eq_or_ne i .nop with rfl | hnop
  · exact ⟨.ok, 0#32, rfl, rfl⟩
  · rcases eq_or_ne i .rdst with rfl | hrdst
    · exact ⟨.ok, s.status, rfl, rfl⟩
    · exact ⟨.errBusy, 0#32, busyRejectsTheOtherFive s i hbusy hnop hrdst, busyRejectsTheOtherFive (s.withBlock b) i hbusy hnop hrdst⟩

theorem runWord_withBlock_of_busy {s : State} (hbusy : s.busy = true) (cw : CommandWord) (b : Word × Word) :
    ∃ c x, runWord cw s = .next (s.respond c x) ∧ runWord cw (s.withBlock b) = .next ((s.withBlock b).respond c x) := by
  cases hdec : decode cw with
  | ok i => simpa only [runWord_of_decode hdec] using exec_withBlock_of_busy hbusy i b
  | error e => exact ⟨.errIllegal, 0#32, runWord_of_illegal hdec s, runWord_of_illegal hdec (s.withBlock b)⟩

/-- Settles O31: the two states are given one and the same response. -/
theorem runningBlockIsHidden : Obligations.RunningBlockIsHidden := by
  intro s t u cw x y hbusy hcw ht hu
  rw [step_of_commandNext hcw] at ht
  rw [step_of_commandNext (s := { s with l := x, r := y }) hcw] at hu
  obtain ⟨c, z, hword, hword'⟩ := runWord_withBlock_of_busy (s := s.popped) hbusy cw (x, y)
  obtain rfl : s.popped.respond c z = t := Host.Outcome.next.inj (hword.symm.trans ht)
  obtain rfl : (s.popped.withBlock (x, y)).respond c z = u := Host.Outcome.next.inj (hword'.symm.trans hu)
  rfl

end Sys2Proof.Machine
end

section
/-! PROOFS. The host's messages and keys (45_host_message_processor R141, R142, R144, R147, R149): hexadecimal characters are read one
by one, a string of whole chunks is the digits of its blocks in order, and the block function's round trip undoes block after block. -/

namespace Sys2Proof.Message

open Sys2Proof.Machine

section KeyString
variable {c : Char} {t : List Char} {ds : List Nibble} {key : KeyWords}

theorem parseHex_cons_eq_none_iff : parseHex (c :: t) = none ↔ hexValue c = none ∨ parseHex t = none := by
  rw [parseHex]
  cases hexValue c <;> cases parseHex t <;> simp

theorem parseHex_cons_eq_some_iff :
    parseHex (c :: t) = some ds ↔ ∃ d es, hexValue c = some d ∧ parseHex t = some es ∧ d :: es = ds := by
  rw [parseHex]
  cases hexValue c <;> cases parseHex t <;> simp

theorem parseHex_eq_none_iff : parseHex t = none ↔ ∃ c ∈ t, hexValue c = none := by
  induction t with
  | nil => simp [parseHex]
  | cons c t ih => rw [parseHex_cons_eq_none_iff, ih, List.exists_mem_cons_iff]

/-- Digit by digit: so a part of the string is read as that part of the digits. -/
theorem parseHex_eq_some_iff : parseHex t = some ds ↔ t.map hexValue = ds.map some := by
  induction t generalizing ds with
  | nil => cases ds <;> simp [parseHex]
  | cons c t ih =>
    rw [parseHex_cons_eq_some_iff, List.map_cons, eq_comm (b := ds.map some), List.map_eq_cons_iff]
    constructor
    · rintro ⟨d, es, hc, ht, rfl⟩
      exact ⟨d, es, rfl, hc.symm, (ih.mp ht).symm⟩
    · rintro ⟨d, es, rfl, hc, ht⟩
      exact ⟨d, es, hc.symm, ih.mpr ht.symm, rfl⟩

theorem parseHex_take_drop (h : parseHex t = some ds) (m n : Nat) : parseHex ((t.drop m).take n) = some ((ds.drop m).take n) := by
  rw [parseHex_eq_some_iff] at h ⊢
  rw [List.map_take, List.map_drop, h, List.map_take, List.map_drop]

theorem keyAt_keyOfDigits (ds : List Nibble) (i : KeyIndex) :
    keyAt (keyOfDigits ds) i = wordOfDigits ((ds.drop (8 * i.toNat)).take 8) := by
  simp [keyAt, keyOfDigits]

theorem parseKey_eq_keyFormat_iff : parseKey t = .error .keyFormat ↔ t.length ≠ 64 ∨ parseHex t = none := by
  rw [parseKey]
  by_cases hlen : t.length = 64
  · cases parseHex t <;> simp [hlen]
  · simp [hlen]

theorem parseKey_ok (h : parseKey t = .ok key) : ∃ ds, parseHex t = some ds ∧ key = keyOfDigits ds := by
  rw [parseKey] at h
  split at h
  · split at h
    next ds hds => exact ⟨ds, hds, (Except.ok.inj h).symm⟩
    · cases h
  · cases h

end KeyString

/-- Settles O58: a string is read exactly when each character is a digit, and a part of it is read as that part of the digits. -/
theorem keyStringRule : Obligations.KeyStringRule := by
  refine ⟨fun t => by rw [parseKey_eq_keyFormat_iff, parseHex_eq_none_iff], fun t key i h => ?_⟩
  obtain ⟨ds, hds, rfl⟩ := parseKey_ok h
  exact ⟨_, parseHex_take_drop hds _ _, keyAt_keyOfDigits ds i⟩

/-- R142: the padded length is the next multiple of 8. -/
theorem length_pad_mod (m : List Byte) : (pad m).length % 8 = 0 := by
  rw [pad, List.length_append, List.length_replicate, padCount]
  omega

/-- Settles O56: the number of filler bytes is the remainder of a division by 8. -/
theorem paddingRule : Obligations.PaddingRule := fun m =>
  ⟨length_pad_mod m, padCount m.length, rfl, Nat.mod_lt _ (by decide), rfl⟩

section Chunks
variable {p : HostParams} {ds : List Nibble}

theorem decryptBlocks_of_whole (h : ds.length % 16 = 0 ∨ p.truncate = true) : decryptBlocks p ds = .ok (blocksOfDigits ds) :=
  if_pos h

theorem decryptBlocks_of_partial (hlen : ds.length % 16 ≠ 0) (htrunc : p.truncate = false) :
    decryptBlocks p ds = .error .blockAlignment :=
  if_neg (by simp [hlen, htrunc])

theorem length_blocksOfDigits (ds : List Nibble) : (blocksOfDigits ds).length = ds.length / 16 := by
  simp [blocksOfDigits, splitChunks]

/-- R36: the halves of the chunk that begins with digit `n`. -/
theorem blockOfChunk_take_drop (ds : List Nibble) (n : Nat) :
    blockOfChunk ((ds.drop n).take 16) = (wordOfDigits ((ds.drop n).take 8), wordOfDigits ((ds.drop (n + 8)).take 8)) := by
  simp [blockOfChunk, List.take_take, List.drop_take]

theorem getElem?_blocksOfDigits {j : Nat} (hj : j < ds.length / 16) :
    (blocksOfDigits ds)[j]? = some (wordOfDigits ((ds.drop (16 * j)).take 8), wordOfDigits ((ds.drop (16 * j + 8)).take 8)) := by
  rw [← blockOfChunk_take_drop, blocksOfDigits, splitChunks, List.map_map, List.getElem?_map, List.getElem?_range hj]
  rfl

/-- R144: the first chunk, then the chunks of what follows it. -/
theorem splitChunks_append {chunk : List Nibble} (h : chunk.length = 16) (ds : List Nibble) :
    splitChunks (chunk ++ ds) = chunk :: splitChunks ds := by
  have hcount : (chunk ++ ds).length / 16 = ds.length / 16 + 1 := by
    rw [List.length_append, h]
    omega
  have hdrop : ∀ j, (chunk ++ ds).drop (16 * (j + 1)) = ds.drop (16 * j) := fun j => by
    rw [Nat.mul_succ, Nat.add_comm, ← h, List.drop_length_add_append]
  rw [splitChunks, hcount, List.range_succ_eq_map, List.map_cons, List.map_map]
  congr 1
  · exact List.take_left' h
  · exact List.map_congr_left fun j _ => congrArg (List.take 16) (hdrop j)

theorem blocksOfDigits_digitsOfBlock_append (b : Word × Word) (ds : List Nibble) :
    blocksOfDigits (digitsOfBlock b ++ ds) = b :: blocksOfDigits ds := by
  rw [blocksOfDigits, splitChunks_append rfl, List.map_cons, blockOfChunk_digitsOfBlock]
  rfl

/-- R36, R144: the digits of blocks, one after the other, are read as those blocks. -/
theorem blocksOfDigits_flatMap_digitsOfBlock (bs : List (Word × Word)) : blocksOfDigits (bs.flatMap digitsOfBlock) = bs := by
  induction bs with
  | nil => rfl
  | cons b bs ih => rw [List.flatMap_cons, blocksOfDigits_digitsOfBlock_append, ih]

theorem exists_eq_flatMap_digitsOfBlock {n : Nat} (h : ds.length = 16 * n) :
    ∃ bs : List (Word × Word), ds = bs.flatMap digitsOfBlock := by
  induction n generalizing ds with
  | zero => exact ⟨[], List.length_eq_zero_iff.mp h⟩
  | succ n ih =>
    obtain ⟨bs, hbs⟩ := ih (ds := ds.drop 16) (by rw [List.length_drop]; omega)
    have hchunk : (ds.take 16).length = 16 := by rw [List.length_take]; omega
    refine ⟨blockOfChunk (ds.take 16) :: bs, ?_⟩
    rw [List.flatMap_cons, digitsOfBlock_blockOfChunk hchunk, ← hbs, List.take_append_drop]

/-- Whole chunks are the digits of the blocks read from them. -/
theorem flatMap_digitsOfBlock_blocksOfDigits (h : ds.length % 16 = 0) : (blocksOfDigits ds).flatMap digitsOfBlock = ds := by
  obtain ⟨n, hn⟩ := Nat.dvd_of_mod_eq_zero h
  obtain ⟨bs, rfl⟩ := exists_eq_flatMap_digitsOfBlock hn
  rw [blocksOfDigits_flatMap_digitsOfBlock]

theorem length_flatMap_digitsOfBlock_mod (bs : List (Word × Word)) : (bs.flatMap digitsOfBlock).length % 16 = 0 := by
  induction bs with
  | nil => rfl
  | cons b bs ih =>
    rw [List.flatMap_cons, List.length_append, show (digitsOfBlock b).length = 16 from rfl, Nat.add_mod_left, ih]

end Chunks

/-- Settles O59: the two branches of `decryptBlocks`, and the block of each chunk. -/
theorem misalignedInputRule : Obligations.MisalignedInputRule := fun _ ds =>
  ⟨decryptBlocks_of_partial, fun h =>
    ⟨blocksOfDigits ds, decryptBlocks_of_whole h, length_blocksOfDigits ds, fun _ => getElem?_blocksOfDigits⟩⟩

section RoundTrip
variable {S : SBoxBank} {key : KeyWords} {d d' : Direction}

theorem outputDigits_eq_flatMap_map (bs : List (Word × Word)) :
    outputDigits S key d bs = (bs.map (crypt S key d)).flatMap digitsOfBlock :=
  (List.flatMap_map _ _ _).symm

/-- R147: what is read from the output is the output blocks. -/
theorem decryptBlocks_outputDigits (p : HostParams) (bs : List (Word × Word)) :
    decryptBlocks p (outputDigits S key d bs) = .ok (bs.map (crypt S key d)) := by
  rw [outputDigits_eq_flatMap_map, decryptBlocks_of_whole (.inl (length_flatMap_digitsOfBlock_mod _)),
    blocksOfDigits_flatMap_digitsOfBlock]

/-- R152: the block function of the other direction takes every block back. -/
theorem outputDigits_map_crypt (h : Function.LeftInverse (crypt S key d') (crypt S key d)) (bs : List (Word × Word)) :
    outputDigits S key d' (bs.map (crypt S key d)) = bs.flatMap digitsOfBlock := by
  rw [outputDigits_eq_flatMap_map, List.map_map, h.comp_eq_id, List.map_id]

/-- R142, R144: a message to encrypt is whole chunks. -/
theorem flatMap_digitsOfBlock_encryptBlocks (p : HostParams) (text : List Char) :
    (encryptBlocks p text).flatMap digitsOfBlock = toHex (pad (p.encodeText text)) := by
  apply flatMap_digitsOfBlock_blocksOfDigits
  have hpad := length_pad_mod (p.encodeText text)
  rw [length_toHex]
  omega

end RoundTrip

/-- Settles O60: the encrypted blocks are read back as they were written, and decrypting each of them leaves the message's blocks. -/
theorem messageRoundTrip : Obligations.MessageRoundTrip := fun p S key text =>
  ⟨_, decryptBlocks_outputDigits p _,
    (outputDigits_map_crypt (fun b => (cryptRoundTrip S key b).1) _).trans (flatMap_digitsOfBlock_encryptBlocks p text)⟩

end Sys2Proof.Message
end

section
/-! PROOFS. The rejections (60_exceptions R160, R161, R166): every word is answered with one of the three rejections, each for its own
cause, or accepted where none of the causes holds; so no step stops the machine. -/

namespace Sys2Proof.Machine

/-- The causes of a rejection, one for each row of R161's table. -/
inductive RejectionCause (s : State) (cw : CommandWord) : ResponseCode → Prop
  | illegal {e} (hdec : decode cw = .error e) : RejectionCause s cw .errIllegal
  | busy {i} (hdec : decode cw = .ok i) (hbusy : s.busy = true) (hnop : i ≠ .nop) (hrdst : i ≠ .rdst) : RejectionCause s cw .errBusy
  | noKey (hdec : decode cw = .ok .start) (hidle : s.busy = false) (hkv : s.kv ≠ 0xFF#8) : RejectionCause s cw .errNoKey

/-- The state after a word: a rejection for its cause, or an acceptance, in which the busy check and the key check do not stand in
the way. -/
inductive WordAnswer (s : State) (cw : CommandWord) : State → Prop
  | rejected {c} (hcause : RejectionCause s cw c) : WordAnswer s cw (s.respond c 0#32)
  | accepted {i} {u : State} {x : Word} (hdec : decode cw = .ok i) (hfree : s.busy = true → i = .nop ∨ i = .rdst)
      (hkeyed : i = .start → s.kv = 0xFF#8) (hresp : u.responses = s.responses) : WordAnswer s cw (u.respond .ok x)

section Answers
variable {s : State} {cw : CommandWord} {i : Instr}

theorem exec_accepts (hfree : s.busy = true → i = .nop ∨ i = .rdst) (hkeyed : i = .start → s.kv = 0xFF#8) :
    ∃ (u : State) (x : Word), exec i s = .next (u.respond .ok x) ∧ u.responses = s.responses := by
  cases i with
  | nop | rdst => exact ⟨s, _, rfl, rfl⟩
  | ldkey k w => exact ⟨_, _, exec_ldkey_of_idle (by simpa using hfree) k w, rfl⟩
  | setdir d => exact ⟨_, _, exec_setdir_of_idle (by simpa using hfree) d, rfl⟩
  | ldblk h w => exact ⟨_, _, exec_ldblk_of_idle (by simpa using hfree) h w, setHalf_responses s h w⟩
  | start => exact ⟨_, _, exec_start_of_keyed (by simpa using hfree) (hkeyed rfl), rfl⟩
  | rdblk h => exact ⟨_, _, exec_rdblk_of_idle (by simpa using hfree) h, rfl⟩

/-- The busy check comes before the key check (R120, R101). -/
theorem exec_wordAnswer (hdec : decode cw = .ok i) (s : State) : ∃ t, exec i s = .next t ∧ WordAnswer s cw t := by
  by_cases hblocked : s.busy = true ∧ i ≠ .nop ∧ i ≠ .rdst
  case pos =>
    obtain ⟨hbusy, hnop, hrdst⟩ := hblocked
    exact ⟨_, busyRejectsTheOtherFive s i hbusy hnop hrdst, .rejected (.busy hdec hbusy hnop hrdst)⟩
  have hfree : s.busy = true → i = .nop ∨ i = .rdst := fun hbusy => by_contra fun h => hblocked ⟨hbusy, not_or.mp h⟩
  by_cases hkeyless : i = .start ∧ s.kv ≠ 0xFF#8
  case pos =>
    obtain ⟨rfl, hkv⟩ := hkeyless
    have hidle : s.busy = false := by simpa using hfree
    exact ⟨_, exec_start_of_keyless hidle hkv, .rejected (.noKey hdec hidle hkv)⟩
  have hkeyed : i = .start → s.kv = 0xFF#8 := fun hstart => not_not.mp (not_and.mp hkeyless hstart)
  obtain ⟨u, x, hexec, hresp⟩ := exec_accepts hfree hkeyed
  exact ⟨_, hexec, .accepted hdec hfree hkeyed hresp⟩

theorem runWord_wordAnswer (cw : CommandWord) (s : State) : ∃ t, runWord cw s = .next t ∧ WordAnswer s cw t := by
  cases hdec : decode cw with
  | ok i => simpa only [runWord_of_decode hdec] using exec_wordAnswer hdec s
  | error e => exact ⟨_, runWord_of_illegal hdec s, .rejected (.illegal hdec)⟩

theorem step_wordAnswer (hcw : s.commandNext cw) : ∃ t, step s = .next t ∧ WordAnswer s.popped cw t :=
  step_of_commandNext hcw ▸ runWord_wordAnswer cw s.popped

end Answers

/-- Settles O13: a word is answered, and the engine's turn and a reset are total functions of the state. -/
theorem everyStepAnswersANextState : Obligations.EveryStepAnswersANextState := by
  intro s
  rw [step]
  cases s.nextMove.1 with
  | command cw =>
    obtain ⟨t, ht, -⟩ := runWord_wordAnswer cw s.nextMove.2
    exact ⟨t, ht⟩
  | engine | reset => exact ⟨_, rfl⟩

/-- Settles O25: each cause of R161 excludes the other two, and an accepted word has none of them. -/
theorem rejectionsAndTheirPriority : Obligations.RejectionsAndTheirPriority := by
  intro s cw hcw
  obtain ⟨t, hstep, hanswer⟩ := step_wordAnswer hcw
  cases hanswer with
  | rejected hcause =>
    refine ⟨_, _, hstep, rfl, ?_⟩
    cases hcause with
    | illegal hdec => simp [hdec]
    | busy hdec hbusy hnop hrdst =>
      rw [popped_busy] at hbusy
      simp [hdec, hbusy, hnop, hrdst]
    | noKey hdec hidle hkv =>
      rw [popped_busy] at hidle
      rw [popped_kv] at hkv
      simp [hdec, hidle, hkv]
  | accepted hdec hfree hkeyed hresp =>
    refine ⟨_, _, hstep, congrArg (· ++ _) hresp, ?_⟩
    simpa [hdec] using And.intro (fun hbusy => (hfree hbusy).resolve_left) fun hstart _ => hkeyed hstart

/-- Settles O26: an accepted word is answered `OK`, and a rejection is the state with the word taken off the schedule and answered. -/
theorem rejectionHasNoEffect : Obligations.RejectionHasNoEffect := by
  intro s t cw x hcw h hresp hcode
  obtain ⟨u, hu, hanswer⟩ := step_wordAnswer hcw
  obtain rfl : u = t := Host.Outcome.next.inj (hu.symm.trans h)
  cases hanswer with
  | rejected hcause =>
    obtain rfl : ⟨_, 0#32⟩ = x := by simpa using hresp
    rfl
  | accepted hdec hfree hkeyed hsame =>
    obtain rfl : ⟨.ok, _⟩ = x := by simpa [hsame] using hresp
    exact absurd rfl hcode

end Sys2Proof.Machine
end

section
/-! PROOFS. Reset (70_reset_and_hazards R180, R181) and progress (R193). A step takes one move off the schedule, so that the schedule
runs out and the turns are the engine's; each turn then is one less of the at most 33 that the operation still needs. -/

namespace Sys2Proof.Machine

theorem step_of_resetNext {s : State} (hturn : s.resetNext) : step s = .next s.popped.applyReset := by
  obtain ⟨p, hhead⟩ := hturn
  rw [step, nextMove_of_head hhead, runMove]

/-- Settles O12: a reset is the reset state (R22) with the model's own two fields kept. -/
theorem resetAtAnyTime : Obligations.ResetAtAnyTime := fun _ hturn =>
  ⟨_, step_of_resetNext hturn, resetValues.1, rfl, rfl, rfl, rfl, rfl, rfl, rfl, rfl, rfl⟩

section Progress
variable {s t : State}

theorem schedule_of_step (h : step s = .next t) : t.schedule = s.schedule.tail := by
  cases stepEffect_of_step h with
  | answer | ldkey | setdir | ldblk | start | round | final | still | reset => simp

theorem exists_runSteps_schedule_eq_drop (n : Nat) (s : State) : ∃ t, runSteps n s = .next t ∧ t.schedule = s.schedule.drop n := by
  induction n generalizing s with
  | zero => exact ⟨s, rfl, rfl⟩
  | succ n ih =>
    obtain ⟨u, hu⟩ := everyStepAnswersANextState s
    obtain ⟨t, ht, hts⟩ := ih u
    refine ⟨t, (runSteps_succ hu).trans ht, ?_⟩
    rw [hts, schedule_of_step hu, List.drop_tail]

/-- The turns of the engine until `BUSY = 0`: the rounds to come and the final exchange (R102, R103). -/
def State.turnsLeft (s : State) : Nat := if s.busy = true then 33 - s.rnd.toNat else 0

theorem turnsLeft_of_busy (hbusy : s.busy = true) : s.turnsLeft = 33 - s.rnd.toNat := if_pos hbusy

theorem turnsLeft_of_idle (hidle : s.busy = false) : s.turnsLeft = 0 := if_neg (by simp [hidle])

theorem turnsLeft_le (s : State) : s.turnsLeft ≤ 33 := by
  unfold State.turnsLeft
  split <;> omega

/-- R23 (a): while busy at least the final exchange is left. -/
theorem State.Inv.idle_of_turnsLeft_eq_zero (h : s.Inv) (hzero : s.turnsLeft = 0) : s.busy = false := by
  obtain ⟨hrnd, -⟩ := h
  by_contra hbusy
  rw [turnsLeft_of_busy (by simpa using hbusy)] at hzero
  bv_omega

/-- R23 (a) is needed here: above 32 the engine stays busy for ever. -/
theorem State.Inv.turnsLeft_engineStep (h : s.Inv) (S : SBoxBank) : (s.engineStep S).turnsLeft = s.turnsLeft - 1 := by
  obtain ⟨hle, -⟩ := h
  obtain ⟨hbusy, hrnd, e⟩ | ⟨hbusy, hrnd, e⟩ | ⟨hdisabled, e⟩ := engineStep_cases S s <;> rw [e]
  case inl =>
    have hsucc : (s.rnd + 1#6).toNat = s.rnd.toNat + 1 := by bv_omega
    rw [turnsLeft_of_busy (s := s.engineRound S) hbusy, turnsLeft_of_busy hbusy, engineRound_rnd, hsucc, Nat.sub_sub]
  case inr.inl => simp [turnsLeft_of_idle (engineFinal_busy s), turnsLeft_of_busy hbusy, hrnd]
  case inr.inr =>
    have hidle : s.busy = false := hdisabled.resolve_right (BitVec.not_lt.mpr hle)
    rw [turnsLeft_of_idle hidle]

/-- R193: with nothing scheduled each step is the engine's turn. -/
theorem State.Inv.idle_after_turns {n : Nat} (h : s.Inv) (hs : s.schedule = []) (hn : s.turnsLeft ≤ n)
    (hrun : runSteps n s = .next t) : t.busy = false := by
  induction n generalizing s with
  | zero =>
    obtain rfl : s = t := Host.Outcome.next.inj hrun
    exact h.idle_of_turnsLeft_eq_zero (Nat.le_zero.mp hn)
  | succ n ih =>
    have hstep := step_of_engineNext (.inl hs)
    have hturns : (s.popped.engineStep Config.sbox).turnsLeft ≤ n := by
      rw [h.popped.turnsLeft_engineStep]
      exact Nat.sub_le_of_le_add hn
    refine ih (h.step hstep) ?_ hturns (runSteps_succ hstep ▸ hrun)
    rw [schedule_of_step hstep, hs, List.tail_nil]

end Progress

/-- Settles O55: the moves of the schedule are made, in whatever order they stand, and at most 33 turns of the engine are left. -/
theorem engineFinishesWithin33Steps : Obligations.EngineFinishesWithin33Steps := by
  intro s hinv
  obtain ⟨u, hu, hus⟩ := exists_runSteps_schedule_eq_drop s.schedule.length s
  obtain ⟨t, ht, hts⟩ := exists_runSteps_schedule_eq_drop 33 u
  rw [List.drop_length] at hus
  rw [hus, List.drop_nil] at hts
  have huinv : u.Inv := runSteps_keeps everyStepKeepsTheInvariants _ s u hinv hu
  exact ⟨t, (runSteps_add hu 33).trans ht, huinv.idle_after_turns hus (turnsLeft_le u) ht, hts⟩

end Sys2Proof.Machine
end
